-- ==== Sys2Proof/Word.lean ====
section
/-! DEFINITION. The bit-vector types of the core and the two kinds of code a decoder is given. -/

namespace Sys2Proof

/-- An unsigned 8-bit value (spec 00 R7). -/
abbrev Byte := BitVec 8

/-- An unsigned 32-bit value (00 R7). -/
abbrev Word := BitVec 32

/-- An unsigned 64-bit value: the width of the host buses (30 R86) and of `LEN`, `pp`, `blk` (10 R25, R26). -/
abbrev Dword := BitVec 64

/-- What one host operation presents on the port, all three buses together (30 R86). -/
structure HostWord where
  hop : BitVec 4
  haddr : Dword
  hwdata : Dword
  deriving DecidableEq, Repr

/-- The two things a decoder handles (30 R80): (a) a host operation with its operand buses, (b) the
phase code that selects the sequencer's micro-operation. The two formats share the codes 1 to 8. -/
inductive Packet where
  | host (w : HostWord)
  | uop (ph : BitVec 4)
  deriving DecidableEq, Repr

end Sys2Proof
end

