-- ==== Sys2Proof/Machine/Rom.lean ====
section
/-! DEFINITION. The constant ROM (spec 40): the rows of its two tables, a prime and a word each, as
40 R116 and R117 print them, and the words the ROM holds. -/

namespace Sys2Proof.Machine

/-- 40 R111: `m` is prime, by trial division up to the square root. -/
def isPrime (m : Nat) : Bool :=
  decide (2 ≤ m) && (List.range m).all fun d => !(decide (2 ≤ d) && decide (d * d ≤ m) && decide (m % d = 0))

/-- 40 R112: `n` is `frac_bits(x)`, the fractional part of `x` times 2^32, truncated. The ROM's words are
tied to it by statements (40 R113, R114); the core itself computes with no real (40 R110, R115). -/
def FracBits (x : ℝ) (n : Nat) : Prop := n = ⌊Int.fract x * 2 ^ 32⌋₊

/-- The rows `k = 0 .. 7` of 40 R116: `prime(k)` and `IV[k]`. -/
def Rom.ivRows : List (Nat × Word) :=
  [(2, 0x6a09e667), (3, 0xbb67ae85), (5, 0x3c6ef372), (7, 0xa54ff53a),
   (11, 0x510e527f), (13, 0x9b05688c), (17, 0x1f83d9ab), (19, 0x5be0cd19)]

/-- The rows `i = 0 .. 15` of 40 R117: `prime(i)` and `K[i]`. -/
def Rom.kRows0 : List (Nat × Word) :=
  [(2, 0x428a2f98), (3, 0x71374491), (5, 0xb5c0fbcf), (7, 0xe9b5dba5),
   (11, 0x3956c25b), (13, 0x59f111f1), (17, 0x923f82a4), (19, 0xab1c5ed5),
   (23, 0xd807aa98), (29, 0x12835b01), (31, 0x243185be), (37, 0x550c7dc3),
   (41, 0x72be5d74), (43, 0x80deb1fe), (47, 0x9bdc06a7), (53, 0xc19bf174)]

/-- The rows `i = 16 .. 31` of 40 R117: `prime(i)` and `K[i]`. -/
def Rom.kRows1 : List (Nat × Word) :=
  [(59, 0xe49b69c1), (61, 0xefbe4786), (67, 0x0fc19dc6), (71, 0x240ca1cc),
   (73, 0x2de92c6f), (79, 0x4a7484aa), (83, 0x5cb0a9dc), (89, 0x76f988da),
   (97, 0x983e5152), (101, 0xa831c66d), (103, 0xb00327c8), (107, 0xbf597fc7),
   (109, 0xc6e00bf3), (113, 0xd5a79147), (127, 0x06ca6351), (131, 0x14292967)]

/-- The rows `i = 32 .. 47` of 40 R117: `prime(i)` and `K[i]`. -/
def Rom.kRows2 : List (Nat × Word) :=
  [(137, 0x27b70a85), (139, 0x2e1b2138), (149, 0x4d2c6dfc), (151, 0x53380d13),
   (157, 0x650a7354), (163, 0x766a0abb), (167, 0x81c2c92e), (173, 0x92722c85),
   (179, 0xa2bfe8a1), (181, 0xa81a664b), (191, 0xc24b8b70), (193, 0xc76c51a3),
   (197, 0xd192e819), (199, 0xd6990624), (211, 0xf40e3585), (223, 0x106aa070)]

/-- The rows `i = 48 .. 63` of 40 R117: `prime(i)` and `K[i]`. -/
def Rom.kRows3 : List (Nat × Word) :=
  [(227, 0x19a4c116), (229, 0x1e376c08), (233, 0x2748774c), (239, 0x34b0bcb5),
   (241, 0x391c0cb3), (251, 0x4ed8aa4a), (257, 0x5b9cca4f), (263, 0x682e6ff3),
   (269, 0x748f82ee), (271, 0x78a5636f), (277, 0x84c87814), (281, 0x8cc70208),
   (283, 0x90befffa), (293, 0xa4506ceb), (307, 0xbef9a3f7), (311, 0xc67178f2)]

/-- The sixty-four rows of 40 R117. -/
def Rom.kRows : List (Nat × Word) := Rom.kRows0 ++ Rom.kRows1 ++ Rom.kRows2 ++ Rom.kRows3

/-- The initial hash words `IV[0..7]`. -/
def Rom.iv : Vector Word 8 := ⟨⟨Rom.ivRows.map Prod.snd⟩, rfl⟩

/-- The round constants `K[0..63]`. -/
def Rom.k : Vector Word 64 := ⟨⟨Rom.kRows.map Prod.snd⟩, rfl⟩

end Sys2Proof.Machine
end

