-- ==== Sys2Proof/Config.lean ====
section
/-! DEFINITION. The parameter of the core and the free values: what the spec leaves open. -/

namespace Sys2Proof

/-- The parameter the spec leaves open (00 R6, 92 D6, 93 U8): `MSG_CAP`, the capacity of the message
memory in bytes, `0 .. 2^61 - 1`. It is an argument of the model: State carries it, no step writes it
(log entry 4). -/
structure Config where
  msgCap : Fin (2 ^ 61)
  deriving DecidableEq, Repr

/-- The parameter at its default, `MSG_CAP = 2^61 - 1` (00 R6). -/
def Config.default : Config := { msgCap := ⟨2 ^ 61 - 1, by decide⟩ }

/-- FREE VALUE (log entries 2, 3): a byte of `MSG` or `PAD` that nothing has written since reset
(10 R33, 93 U3, U7), fixed at the read; the argument is the number of the draw. -/
opaque Config.freeByte : Nat → Byte

/-- FREE VALUE (log entry 2): what a host read returns where the spec says "unspecified"
(93 U2, U4); the argument is the number of the draw. -/
opaque Config.freeReturn : Nat → Dword

/-- FREE VALUE (log entry 2): the words `v[0..7]`, `H[0..7]`, `W[0..63]` after a reset event (93 U7);
the arguments are the number of the draw and the number of the word. -/
opaque Config.freeWord : Nat → Nat → Word

/-- FREE VALUE (log entry 2): the counters `pp` and `blk` after a reset event (93 U7); the arguments are
the number of the draw and the number of the counter. -/
opaque Config.freeCounter : Nat → Nat → Dword

/-- FREE VALUE (log entry 2): the counter `t` after a reset event (93 U7); the argument is the number
of the draw. -/
opaque Config.freeIndex : Nat → BitVec 7

end Sys2Proof
end

