-- ==== Sys2Proof/Machine/State.lean ====
section
/-! DEFINITION. The state of the core (spec 10), its reset value, and how a step can stop. -/

namespace Sys2Proof.Machine

/-- The sequencer's phases (10 R24). An enumeration: codes 11 to 15 cannot occur (30 R92, 93 U10). -/
inductive Phase where
  | idle | hInit | padCopy | padMark | padZero | padLen | schLoad | schExp | cmpInit | cmpRound | cmpFold
  deriving DecidableEq, Repr

/-- The working variables `a` to `h`, also `v[0..7]` (10 R20). -/
structure Vars where
  a : Word
  b : Word
  c : Word
  d : Word
  e : Word
  f : Word
  g : Word
  h : Word
  deriving DecidableEq, Repr

/-- Who takes a coming step, and what the host presents in it (44 R225, 70 R270; log entry 6). -/
inductive Input where
  /-- The host issues one operation on the port. -/
  | host (w : HostWord)
  /-- The sequencer is given the step. -/
  | sequencer
  /-- The reset input: a reset event. -/
  | reset
  deriving DecidableEq, Repr

/-- Bytes held in a memory space, by address, in one canonical form: addresses strictly rising
(`Memory.wf`). An unlisted byte holds no value (10 R33). -/
abbrev Memory := List Host.Cell

/-- Everything the spec gives the core (10, section 1), the port's result bus, and the model's own
`inputs` and `draws`. -/
structure State where
  /-- The parameter `MSG_CAP` (00 R6); no step writes it. -/
  cfg : Config
  /-- `a` to `h` (10 R20). -/
  vars : Vars
  /-- `H[0..7]` (10 R21). -/
  hash : Vector Word 8
  /-- `W[0..63]` (10 R22). -/
  sched : Vector Word 64
  /-- `ph` (10 R24). -/
  ph : Phase
  /-- `pp` (10 R25). -/
  pp : Dword
  /-- `blk` (10 R25). -/
  blk : Dword
  /-- `t` (10 R25). -/
  t : BitVec 7
  /-- `LEN` (10 R26). -/
  len : Dword
  /-- `VALID` (10 R27). -/
  valid : Bool
  /-- `ERR` (10 R27). -/
  err : Bool
  /-- `ECAUSE` (10 R27). -/
  ecause : BitVec 4
  /-- `MSG` (10 R29, 20 R51). -/
  msg : Memory
  /-- `PAD` (10 R29, 20 R52). -/
  pad : Memory
  /-- The port's result bus, as the last host operation left it (30 R86; log entry 5). -/
  hrdata : Dword
  /-- The model's own: the coming steps, the next one first (log entry 6). -/
  inputs : List Input
  /-- The model's own: how many free values have been drawn (log entry 2). -/
  draws : Nat
  deriving DecidableEq, Repr

/-- What stops the machine with a fault. All are SAFE, and only a state that no run reaches can meet
one: 44 R201 says that no micro-operation faults, and the invariant `State.Inv` of Safety.lean rules each out. -/
inductive Fault where
  /-- `U_PADCOPY` reads `MSG` at an address that does not exist, `pp >= MSG_CAP` (20 R51). Safe. -/
  | msgAddress (address : Nat)
  /-- `U_PADCOPY`, `U_PADMARK`, `U_PADZERO`, `U_PADLEN` write, or `U_SCHLOAD` reads, `PAD` at an address
  that does not exist, `>= PAD_CAP` (20 R52). Safe. -/
  | padAddress (address : Nat)
  /-- `U_SCHLOAD`, `U_SCHEXP` or `U_CMPROUND` names a word of `W` or `K` that does not exist (10 R22,
  R23). Safe. -/
  | wordIndex (index : Nat)
  /-- `U_PADLEN` has a bit length `8 * LEN >= 2^64`, for which `pad` has no value (41 R133, 93 U1).
  Safe. -/
  | bitLength (length : Nat)
  deriving DecidableEq, Repr

/-- What has no meaning. -/
inductive Refusal where
  /-- An arm of `exec` that has no meaning yet; none is left. Safe. -/
  | notModelled (mnemonic : String)
  /-- A host step with `hop` 9 to 15, which the spec says a model refuses (30 R91, 93 U5). Raised by
  `step`, from the decoder. Safe. -/
  | reservedHop (hop : BitVec 4)
  deriving DecidableEq, Repr

/-- The outcome of one step. -/
abbrev Result := Host.Outcome State Fault Refusal

/-- The machine right after reset (10 R32): idle, no flag set, `LEN = 0`, no byte of `MSG` or `PAD`
holding a value. The spec states no value for `H`, `a` to `h`, `W`, `pp`, `blk`, `t`; here each is 0
(DESIGN CHOICE, UNSAFE, log entry 1). `MSG_CAP` is at its default (00 R6). -/
def State.reset : State where
  cfg := Config.default
  vars := ⟨0, 0, 0, 0, 0, 0, 0, 0⟩
  hash := Vector.replicate 8 0
  sched := Vector.replicate 64 0
  ph := .idle
  pp := 0
  blk := 0
  t := 0
  len := 0
  valid := false
  err := false
  ecause := 0
  msg := []
  pad := []
  hrdata := 0
  inputs := []
  draws := 0

end Sys2Proof.Machine
end

