-- ==== Sys2Proof/Machine/Operands.lean ====
section
/-! DEFINITION. Operands: what an operation takes from the buses, the ROM, the digest window, the
schedule registers, and the working variables as a vector. -/

namespace Sys2Proof.Machine

/-- The write-data operand of `HWR_MSG`: `hwdata[7:0]`, the other bits ignored (30 R88). -/
def dataByte (hwdata : Dword) : Byte := hwdata.extractLsb' 0 8

/-- `zext_64` of a byte (00 R11). -/
def zextByte (b : Byte) : Dword := b.setWidth 64

/-- `zext_64` of a word (00 R11). -/
def zextWord (w : Word) : Dword := w.setWidth 64

/-- `IV[k]`, for an index of the table; the index is not reduced (30 R88). -/
def Rom.ivAt (k : Nat) : Option Word := Rom.iv[k]?

/-- `K[i]`, for an index of the table; the index is not reduced (30 R88). -/
def Rom.kAt (i : Nat) : Option Word := Rom.k[i]?

/-- Byte `j` of the digest window, `H[j div 4][31 - 8*(j mod 4) : 24 - 8*(j mod 4)]` (20 R54), for an
index of the window. -/
def State.dig (s : State) (j : Nat) : Option Byte :=
  match s.hash[j / 4]? with
  | some w => some (w.extractLsb' (24 - 8 * (j % 4)) 8)
  | none => none

/-- `W[i]`, for an index the registers have (10 R22). -/
def State.schedAt (s : State) (i : Nat) : Option Word := s.sched[i]?

/-- `v[0..7] = (a, b, c, d, e, f, g, h)` (10 R20). -/
def Vars.toVector (v : Vars) : Vector Word 8 := #v[v.a, v.b, v.c, v.d, v.e, v.f, v.g, v.h]

/-- The working variables from eight words, in order (43 R177). -/
def Vars.ofVector (x : Vector Word 8) : Vars := ⟨x[0], x[1], x[2], x[3], x[4], x[5], x[6], x[7]⟩

end Sys2Proof.Machine
end

