-- ==== Sys2Proof/Machine/WordOps.lean ====
section
/-! DEFINITION. Arithmetic and logic on 32-bit words, the mixing functions, and words from bytes. -/

namespace Sys2Proof.Machine

/-- Addition modulo 2^32 (00 R8, 42 R150): the carry is discarded and nothing is raised. A sum of
several words is written with nested `add32` (00 R8: the order does not matter). -/
def add32 (x y : Word) : Word := x + y

/-- Rotation right by `1 <= n <= 31` (42 R151), in the rule's own first form. -/
def rotr (x : Word) (n : Nat) : Word := (x >>> n) ||| (x <<< (32 - n))

/-- Logical shift right by `0 <= n <= 31` (42 R152): zeros enter at bit 31. -/
def shr (x : Word) (n : Nat) : Word := x >>> n

/-- The schedule's `s0` (42 R153). -/
def ssig0 (x : Word) : Word := rotr x 7 ^^^ rotr x 18 ^^^ shr x 3

/-- The schedule's `s1` (42 R154). -/
def ssig1 (x : Word) : Word := rotr x 17 ^^^ rotr x 19 ^^^ shr x 10

/-- The compressor's `S0` (43 R171). -/
def bsig0 (x : Word) : Word := rotr x 2 ^^^ rotr x 13 ^^^ rotr x 22

/-- The compressor's `S1` (43 R172). -/
def bsig1 (x : Word) : Word := rotr x 6 ^^^ rotr x 11 ^^^ rotr x 25

/-- Choose (43 R173). -/
def ch (x y z : Word) : Word := (x &&& y) ^^^ (~~~x &&& z)

/-- Majority (43 R174). -/
def maj (x y z : Word) : Word := (x &&& y) ^^^ (x &&& z) ^^^ (y &&& z)

/-- A word from four bytes, most significant first (00 R10, 30 R81). -/
def be32 (b0 b1 b2 b3 : Byte) : Word := b0 ++ b1 ++ b2 ++ b3

/-- The four bytes of a word, most significant first (00 R10). -/
def be32Bytes (w : Word) : List Byte :=
  [w.extractLsb' 24 8, w.extractLsb' 16 8, w.extractLsb' 8 8, w.extractLsb' 0 8]

/-- The eight bytes of a 64-bit value, most significant first (00 R10, 30 R83). -/
def be64Bytes (v : Dword) : List Byte :=
  [v.extractLsb' 56 8, v.extractLsb' 48 8, v.extractLsb' 40 8, v.extractLsb' 32 8,
   v.extractLsb' 24 8, v.extractLsb' 16 8, v.extractLsb' 8 8, v.extractLsb' 0 8]

end Sys2Proof.Machine
end

