-- ==== Sys2Proof/Machine/Ops.lean ====
section
/-! DEFINITION. The named operations on the memories, the free values, the exception and reset. -/

namespace Sys2Proof.Machine

/-! ### The byte memories -/

/-- The canonical form of a memory: addresses strictly rising. -/
abbrev Memory.wf (m : Memory) : Prop := List.Pairwise (fun x y => x.1 < y.1) m

/-- The byte held at an address; `none` when no value is held there (10 R33). -/
def Memory.read (m : Memory) (a : Nat) : Option Byte :=
  match m with
  | [] => none
  | c :: rest => if c.1 = a then some c.2 else Memory.read rest a

/-- Writes one byte, keeping the addresses rising. -/
def Memory.write (m : Memory) (a : Nat) (b : Byte) : Memory :=
  match m with
  | [] => [(a, b)]
  | c :: rest =>
    if a < c.1 then (a, b) :: c :: rest
    else if a = c.1 then (a, b) :: rest
    else c :: Memory.write rest a b

/-- Writes bytes at rising addresses from `a` (00 R11, `MemWrite`). -/
def Memory.writeBytes (m : Memory) (a : Nat) (bs : List Byte) : Memory :=
  match bs with
  | [] => m
  | b :: rest => Memory.writeBytes (m.write a b) (a + 1) rest

/-- `PAD_CAP = 64 * ceil((MSG_CAP + 9) / 64)` (00 R6). -/
def State.padCap (s : State) : Nat := 64 * ((s.cfg.msgCap.val + 9 + 63) / 64)

/-! ### Free values (93 U2, U3, U4, U7; log entry 2) -/

/-- Draws a free byte. -/
def State.drawByte (s : State) : Byte × State :=
  (Config.freeByte s.draws, { s with draws := s.draws + 1 })

/-- A byte of a memory: the byte held, or a free byte where none is held (93 U3). -/
def State.readByte (s : State) (m : Memory) (a : Nat) : Byte × State :=
  match m.read a with
  | some b => (b, s)
  | none => s.drawByte

/-- `MemRead(MSG, p, 1)` (00 R11, 20 R51). -/
def State.readMsg (s : State) (p : Nat) : Byte × State := s.readByte s.msg p

/-- `MemRead(PAD, p, 4)`, big-endian (00 R11, 20 R56). -/
def State.readPadWord (s : State) (p : Nat) : Word × State :=
  let r0 := s.readByte s.pad p
  let r1 := r0.2.readByte s.pad (p + 1)
  let r2 := r1.2.readByte s.pad (p + 2)
  let r3 := r2.2.readByte s.pad (p + 3)
  (be32 r0.1 r1.1 r2.1 r3.1, r3.2)

/-- `MemWrite(PAD, p, n, v)` for the `n` bytes `bs` of `v` (00 R11); `none` when an address of them does
not exist (20 R52). -/
def State.writePad (s : State) (p : Nat) (bs : List Byte) : Option State :=
  if p + bs.length ≤ s.padCap then some { s with pad := s.pad.writeBytes p bs } else none

/-- `MSG[p] <- b` for an address the memory has; nothing is stored outside it (20 R51, 44 R216). -/
def State.writeMsg (s : State) (p : Nat) (b : Byte) : State :=
  if p < s.cfg.msgCap.val then { s with msg := s.msg.write p b } else s

/-! ### The answer of a host operation -/

/-- `hrdata <- v` (00 R11). -/
def State.answer (s : State) (v : Dword) : State := { s with hrdata := v }

/-- `hrdata <- unspecified`: a free value (93 U2, U4); no other state changes. -/
def State.answerFree (s : State) : State :=
  { s with hrdata := Config.freeReturn s.draws, draws := s.draws + 1 }

/-! ### The exception (spec 60) and the start that clears it -/

/-- Entry of `InputTooLarge` (60 R244): `ERR` and `ECAUSE` record it, `VALID` is 0, `ph` stays as it
is, and nothing else changes (R245). No state is saved and control goes nowhere. -/
def State.raiseInputTooLarge (s : State) : State :=
  { s with valid := false, err := true, ecause := 1 }

/-- Acceptance of `HSTART` (44 R218), which is also what ends an exception: there is no return
operation, `ERR` and `ECAUSE` are cleared by the next accepted start (60 R246). -/
def State.acceptStart (s : State) : State :=
  { s with valid := false, err := false, ecause := 0, ph := .hInit }

/-! ### Reset and the coming steps -/

/-- The reset event (70 R270): the values of 10 R32, everything else unspecified, which is a free value
for each register (93 U7) and no held byte in either memory (10 R33). It touches neither the parameter
nor the coming steps, and `hrdata` keeps the last answer. -/
def State.resetEvent (s : State) : State where
  cfg := s.cfg
  vars :=
    ⟨Config.freeWord s.draws 0, Config.freeWord s.draws 1, Config.freeWord s.draws 2, Config.freeWord s.draws 3,
     Config.freeWord s.draws 4, Config.freeWord s.draws 5, Config.freeWord s.draws 6, Config.freeWord s.draws 7⟩
  hash := Vector.ofFn fun k => Config.freeWord s.draws (8 + k.val)
  sched := Vector.ofFn fun i => Config.freeWord s.draws (16 + i.val)
  ph := .idle
  pp := Config.freeCounter s.draws 0
  blk := Config.freeCounter s.draws 1
  t := Config.freeIndex s.draws
  len := 0
  valid := false
  err := false
  ecause := 0
  msg := []
  pad := []
  hrdata := s.hrdata
  inputs := s.inputs
  draws := s.draws + 1

/-- The step takes the next of the coming steps off the list. -/
def State.advance (s : State) : State := { s with inputs := s.inputs.tail }

end Sys2Proof.Machine
end

