-- ==== Sys2Proof/Machine/Compress.lean ====
section
/-! DEFINITION. The round and the compression micro-operations (43 R175 to R179). -/

namespace Sys2Proof.Machine

/-- `T1 = add32(h, bsig1(e), ch(e, f, g), k, w)` (43 R175). -/
def temp1 (v : Vars) (k w : Word) : Word :=
  add32 (add32 (add32 (add32 v.h (bsig1 v.e)) (ch v.e v.f v.g)) k) w

/-- `T2 = add32(bsig0(a), maj(a, b, c))` (43 R175). -/
def temp2 (v : Vars) : Word := add32 (bsig0 v.a) (maj v.a v.b v.c)

/-- One round, a simultaneous update (43 R175, R176). -/
def round (v : Vars) (k w : Word) : Vars where
  a := add32 (temp1 v k w) (temp2 v)
  b := v.a
  c := v.b
  d := v.c
  e := add32 v.d (temp1 v k w)
  f := v.e
  g := v.f
  h := v.g

/-- `H[k] <- add32(H[k], v[k])` for `k` in `0..7` (43 R179). -/
def foldHash (hash : Vector Word 8) (v : Vars) : Vector Word 8 :=
  Vector.ofFn fun k => add32 hash[k] v.toVector[k]

/-- `U_CMPINIT` (43 R177). -/
def execUCmpinit (s : State) : Result :=
  .next { s with vars := Vars.ofVector s.hash, t := 0, ph := .cmpRound }

/-- `U_CMPROUND` (43 R178); a fault where `K[t]` and `W[t]` do not exist. -/
def execUCmpround (s : State) : Result :=
  match Rom.kAt s.t.toNat, s.schedAt s.t.toNat with
  | some k, some w =>
    .next { s with
      vars := round s.vars k w
      t := s.t + 1
      ph := if s.t.toNat + 1 = 64 then .cmpFold else .cmpRound }
  | _, _ => .fault (.wordIndex s.t.toNat)

/-- `U_CMPFOLD` (43 R179): the run ends at the last block and only there. -/
def execUCmpfold (s : State) : Result :=
  let folded := { s with hash := foldHash s.hash s.vars, blk := s.blk + 1 }
  if s.blk.toNat + 1 = s.pp.toNat / 64 then .next { folded with valid := true, ph := .idle }
  else .next { folded with t := 0, ph := .schLoad }

end Sys2Proof.Machine
end

