-- ==== Sys2Proof/Machine/Flags.lean ====
section
/-! DEFINITION. The flags and the status word (10 R27, R28), and the test of the one exception. -/

namespace Sys2Proof.Machine

/-- `BUSY = (ph != IDLE)` (10 R28). -/
def State.busy (s : State) : Bool := s.ph != .idle

/-- `STATUS` (10 R27): bit 0 `BUSY`, bit 1 `VALID`, bit 2 `ERR`, bits 11:8 `ECAUSE`, the rest 0. -/
def State.status (s : State) : Dword :=
  0#52 ++ s.ecause ++ 0#5 ++ BitVec.ofBool s.err ++ BitVec.ofBool s.valid ++ BitVec.ofBool s.busy

/-- The condition of `InputTooLarge` (44 R218, 60 R241, R242), on the exact product `8 * LEN`. -/
def State.inputTooLarge (s : State) : Bool :=
  decide (2 ^ 64 ≤ 8 * s.len.toNat) || decide (s.cfg.msgCap.val < s.len.toNat)

end Sys2Proof.Machine
end

