-- ==== Sys2Proof/Machine/HostOps.lean ====
section
/-! DEFINITION. The nine host operations (44 R213 to R223). -/

namespace Sys2Proof.Machine

/-- The gate of 44 R213 and the answer of R214: while busy the operation changes no state; either way
it returns 0. -/
def State.gated (s : State) (f : State → State) : State :=
  (if s.busy then s else f s).answer 0

/-- A read whose value is unspecified where none is given (44 R220 to R222). -/
def State.answerOrFree (s : State) (v : Option Dword) : State :=
  match v with
  | some x => s.answer x
  | none => s.answerFree

/-- What a start that is not ignored does (44 R218): `VALID` falls, then the length test. -/
def State.start (s : State) : State :=
  let cleared := { s with valid := false }
  if cleared.inputTooLarge then cleared.raiseInputTooLarge else cleared.acceptStart

/-- `HNOP` (44 R215). -/
def execHnop (s : State) : Result := .next (s.answer 0)

/-- `HWR_MSG` (44 R216). -/
def execHwrMsg (haddr hwdata : Dword) (s : State) : Result :=
  .next (s.gated fun u => u.writeMsg haddr.toNat (dataByte hwdata))

/-- `HWR_LEN` (44 R217). -/
def execHwrLen (hwdata : Dword) (s : State) : Result :=
  .next (s.gated fun u => { u with len := hwdata })

/-- `HSTART` (44 R218). -/
def execHstart (s : State) : Result := .next (s.gated State.start)

/-- `HRD_STATUS` (44 R219). -/
def execHrdStatus (s : State) : Result := .next (s.answer s.status)

/-- `HRD_DIGEST` (44 R220): unspecified while `VALID = 0` or outside the window (93 U2, U4). -/
def execHrdDigest (haddr : Dword) (s : State) : Result :=
  .next (s.answerOrFree (if s.valid then (s.dig haddr.toNat).map zextByte else none))

/-- `HRD_IV` (44 R221): unspecified outside the table (93 U4). -/
def execHrdIv (haddr : Dword) (s : State) : Result :=
  .next (s.answerOrFree ((Rom.ivAt haddr.toNat).map zextWord))

/-- `HRD_K` (44 R222): unspecified outside the table (93 U4). -/
def execHrdK (haddr : Dword) (s : State) : Result :=
  .next (s.answerOrFree ((Rom.kAt haddr.toNat).map zextWord))

/-- `HRD_LEN` (44 R223). -/
def execHrdLen (s : State) : Result := .next (s.answer s.len)

end Sys2Proof.Machine
end

