-- ==== Sys2Proof/Machine/Padder.lean ====
section
/-! DEFINITION. The padding micro-operations (41 R134 to R137). -/

namespace Sys2Proof.Machine

/-- The phase after `U_PADMARK` or `U_PADZERO` (41 R135, R136), from `pp + 1`. -/
def fillPhase (next : Nat) : Phase := if next % 64 = 56 then .padLen else .padZero

/-- Appends bytes to `PAD` at `pp` and moves `pp` past them, with the phase after (41 R134 to R137);
a fault where an address does not exist (20 R52). -/
def State.appendPad (s : State) (bs : List Byte) (after : State → State) : Result :=
  match s.writePad s.pp.toNat bs with
  | some u => .next (after { u with pp := u.pp + BitVec.ofNat 64 bs.length })
  | none => .fault (.padAddress s.pp.toNat)

/-- `U_PADCOPY` (41 R134). -/
def execUPadcopy (s : State) : Result :=
  if s.pp.toNat < s.cfg.msgCap.val then
    let r := s.readMsg s.pp.toNat
    r.2.appendPad [r.1] fun u =>
      { u with ph := if s.pp.toNat + 1 = s.len.toNat then .padMark else .padCopy }
  else .fault (.msgAddress s.pp.toNat)

/-- `U_PADMARK` (41 R135). -/
def execUPadmark (s : State) : Result :=
  s.appendPad [0x80] fun u => { u with ph := fillPhase (s.pp.toNat + 1) }

/-- `U_PADZERO` (41 R136). -/
def execUPadzero (s : State) : Result :=
  s.appendPad [0x00] fun u => { u with ph := fillPhase (s.pp.toNat + 1) }

/-- `U_PADLEN` (41 R137): the bit length is exact, never truncated (41 R133); a fault where it does not
fit, which `HSTART` excluded. -/
def execUPadlen (s : State) : Result :=
  if 8 * s.len.toNat < 2 ^ 64 then
    s.appendPad (be64Bytes (BitVec.ofNat 64 (8 * s.len.toNat))) fun u =>
      { u with blk := 0, t := 0, ph := .schLoad }
  else .fault (.bitLength s.len.toNat)

end Sys2Proof.Machine
end

