-- ==== Sys2Proof/Machine/Schedule.lean ====
section
/-! DEFINITION. The schedule micro-operations (42 R156, R157). -/

namespace Sys2Proof.Machine

/-- The recurrence of 42 R155 on its four source words `W[i-16]`, `W[i-15]`, `W[i-7]`, `W[i-2]`. -/
def expandWord (w16 w15 w7 w2 : Word) : Word :=
  add32 (add32 (add32 w16 (ssig0 w15)) w7) (ssig1 w2)

/-- The schedule word the recurrence gives at index `t`; `none` where an index does not exist. -/
def State.derivedWord (s : State) (t : Nat) : Option Word :=
  if 16 ≤ t then
    match s.schedAt (t - 16), s.schedAt (t - 15), s.schedAt (t - 7), s.schedAt (t - 2) with
    | some w16, some w15, some w7, some w2 => some (expandWord w16 w15 w7 w2)
    | _, _, _, _ => none
  else none

/-- `W[t] <- x`, `t <- t + 1`, and the phase after (42 R156, R157); a fault where `W[t]` does not exist. -/
def State.putSched (s : State) (x : Word) (next : Phase) : Result :=
  if h : s.t.toNat < 64 then
    .next { s with sched := s.sched.set s.t.toNat x h, t := s.t + 1, ph := next }
  else .fault (.wordIndex s.t.toNat)

/-- The address `U_SCHLOAD` reads, `64 * blk + 4 * t` (42 R156). -/
def State.loadAddress (s : State) : Nat := 64 * s.blk.toNat + 4 * s.t.toNat

/-- `U_SCHLOAD` (42 R156). -/
def execUSchload (s : State) : Result :=
  if s.loadAddress + 4 ≤ s.padCap then
    let r := s.readPadWord s.loadAddress
    r.2.putSched r.1 (if s.t.toNat + 1 = 16 then .schExp else .schLoad)
  else .fault (.padAddress s.loadAddress)

/-- `U_SCHEXP` (42 R157). -/
def execUSchexp (s : State) : Result :=
  match s.derivedWord s.t.toNat with
  | some x => s.putSched x (if s.t.toNat + 1 = 64 then .cmpInit else .schExp)
  | none => .fault (.wordIndex s.t.toNat)

end Sys2Proof.Machine
end

