-- ==== Sys2Proof/Syntax.lean ====
section
/-! DEFINITION. The instructions: one constructor per row of spec/opcode_table.json. -/

namespace Sys2Proof

/-- The nine host operations (30 R87) with the buses they use, and the ten micro-operations (30 R89),
whose operands are registers and never bits of an instruction. A bus that an operation ignores is no
operand of it (30 R88). -/
inductive Instr where
  /-- `HNOP` (44 R215). -/
  | hnop
  /-- `HWR_MSG p, b` (44 R216): the byte is `hwdata[7:0]`; the bus is kept whole, as presented. -/
  | hwrMsg (haddr hwdata : Dword)
  /-- `HWR_LEN n` (44 R217). -/
  | hwrLen (hwdata : Dword)
  /-- `HSTART` (44 R218). -/
  | hstart
  /-- `HRD_STATUS` (44 R219). -/
  | hrdStatus
  /-- `HRD_DIGEST j` (44 R220). -/
  | hrdDigest (haddr : Dword)
  /-- `HRD_IV k` (44 R221). -/
  | hrdIv (haddr : Dword)
  /-- `HRD_K i` (44 R222). -/
  | hrdK (haddr : Dword)
  /-- `HRD_LEN` (44 R223). -/
  | hrdLen
  /-- `U_HINIT` (44 R205). -/
  | uHinit
  /-- `U_PADCOPY` (41 R134). -/
  | uPadcopy
  /-- `U_PADMARK` (41 R135). -/
  | uPadmark
  /-- `U_PADZERO` (41 R136). -/
  | uPadzero
  /-- `U_PADLEN` (41 R137). -/
  | uPadlen
  /-- `U_SCHLOAD` (42 R156). -/
  | uSchload
  /-- `U_SCHEXP` (42 R157). -/
  | uSchexp
  /-- `U_CMPINIT` (43 R177). -/
  | uCmpinit
  /-- `U_CMPROUND` (43 R178). -/
  | uCmpround
  /-- `U_CMPFOLD` (43 R179). -/
  | uCmpfold
  deriving DecidableEq, Repr

end Sys2Proof
end

