-- ==== Sys2Proof/WellFormed.lean ====
section
/-! DEFINITION. Which packets carry an instruction, and which instructions are well formed. -/

namespace Sys2Proof

/-- A packet carries an instruction when its code has a row: `hop` 0 to 8 (30 R87; 9 to 15 are
reserved, R91), or a phase code 1 to 10 (30 R89; 0 is `IDLE`, which has no micro-operation, and 11 to
15 are reserved, R92). The operand buses are not checked: every value of them is legal (30 R88). -/
def Packet.wellFormed : Packet → Bool
  | .host w => decide (w.hop ≤ 8)
  | .uop ph => decide (1 ≤ ph) && decide (ph ≤ 10)

/-- No instruction is ill formed: an operand is a whole 64-bit bus, and the rules give every value of
it a meaning (30 R88: an index is used whole and not reduced; 10 R26: every length is legal to write). -/
def Instr.wellFormed : Instr → Bool
  | .hnop => true
  | .hwrMsg _ _ => true
  | .hwrLen _ => true
  | .hstart => true
  | .hrdStatus => true
  | .hrdDigest _ => true
  | .hrdIv _ => true
  | .hrdK _ => true
  | .hrdLen => true
  | .uHinit => true
  | .uPadcopy => true
  | .uPadmark => true
  | .uPadzero => true
  | .uPadlen => true
  | .uSchload => true
  | .uSchexp => true
  | .uCmpinit => true
  | .uCmpround => true
  | .uCmpfold => true

end Sys2Proof
end

