-- ==== Sys2Proof/Decode.lean ====
section
/-! DEFINITION. The decoder of the two formats, total and rejecting by name; the encoder; and the
reading of a word of spec/opcode_table.json. -/

namespace Sys2Proof

/-- Why a packet carries no instruction. -/
inductive DecodeError where
  /-- `hop` 9 to 15 (30 R91). -/
  | reservedHop (hop : BitVec 4)
  /-- Phase code 0: the sequencer is idle and has no micro-operation (44 R201). -/
  | idlePhase
  /-- Phase codes 11 to 15 (30 R92). -/
  | reservedPhase (ph : BitVec 4)
  deriving DecidableEq, Repr

/-- Format HOST (30 R87): all four bits of `hop` are matched. -/
def decodeHost (w : HostWord) : Except DecodeError Instr :=
  match w.hop with
  | 0b0000#4 => .ok .hnop
  | 0b0001#4 => .ok (.hwrMsg w.haddr w.hwdata)
  | 0b0010#4 => .ok (.hwrLen w.hwdata)
  | 0b0011#4 => .ok .hstart
  | 0b0100#4 => .ok .hrdStatus
  | 0b0101#4 => .ok (.hrdDigest w.haddr)
  | 0b0110#4 => .ok (.hrdIv w.haddr)
  | 0b0111#4 => .ok (.hrdK w.haddr)
  | 0b1000#4 => .ok .hrdLen
  | hop => .error (.reservedHop hop)

/-- Format UOP (30 R89): all four bits of the phase code are matched. -/
def decodeUop (ph : BitVec 4) : Except DecodeError Instr :=
  match ph with
  | 0b0000#4 => .error .idlePhase
  | 0b0001#4 => .ok .uHinit
  | 0b0010#4 => .ok .uPadcopy
  | 0b0011#4 => .ok .uPadmark
  | 0b0100#4 => .ok .uPadzero
  | 0b0101#4 => .ok .uPadlen
  | 0b0110#4 => .ok .uSchload
  | 0b0111#4 => .ok .uSchexp
  | 0b1000#4 => .ok .uCmpinit
  | 0b1001#4 => .ok .uCmpround
  | 0b1010#4 => .ok .uCmpfold
  | code => .error (.reservedPhase code)

/-- The decoder (30 R80): the format is known from the agent that steps, never from the bits. -/
def decode : Packet → Except DecodeError Instr
  | .host w => decodeHost w
  | .uop ph => decodeUop ph

/-- The encoder, from the tables of 30 R87 and R89; an ignored bus is written as 0 (30 R94). -/
def encode : Instr → Packet
  | .hnop => .host ⟨0, 0, 0⟩
  | .hwrMsg haddr hwdata => .host ⟨1, haddr, hwdata⟩
  | .hwrLen hwdata => .host ⟨2, 0, hwdata⟩
  | .hstart => .host ⟨3, 0, 0⟩
  | .hrdStatus => .host ⟨4, 0, 0⟩
  | .hrdDigest haddr => .host ⟨5, haddr, 0⟩
  | .hrdIv haddr => .host ⟨6, haddr, 0⟩
  | .hrdK haddr => .host ⟨7, haddr, 0⟩
  | .hrdLen => .host ⟨8, 0, 0⟩
  | .uHinit => .uop 1
  | .uPadcopy => .uop 2
  | .uPadmark => .uop 3
  | .uPadzero => .uop 4
  | .uPadlen => .uop 5
  | .uSchload => .uop 6
  | .uSchexp => .uop 7
  | .uCmpinit => .uop 8
  | .uCmpround => .uop 9
  | .uCmpfold => .uop 10

/-- Whether a host operation code uses the address bus (30 R87). -/
def usesHaddr (hop : BitVec 4) : Bool := hop == 1 || hop == 5 || hop == 6 || hop == 7

/-- Whether a host operation code uses the write-data bus (30 R87). -/
def usesHwdata (hop : BitVec 4) : Bool := hop == 1 || hop == 2

/-- A packet with its ignored buses written as 0 (30 R94). -/
def Packet.canonical : Packet → Packet
  | .host w =>
    .host ⟨w.hop, if usesHaddr w.hop then w.haddr else 0, if usesHwdata w.hop then w.hwdata else 0⟩
  | .uop ph => .uop ph

/-- The packet of a word of spec/opcode_table.json (log entry 7). Byte 0 holds the 4-bit code in its low
half; the buses the table gives no bits follow it, `haddr` in bits 71..8 and `hwdata` in bits 135..72.
The table's two formats give the same four bits to two rows each (codes 1 to 8) and the word does not say
which is meant: a code that HOST defines is read as HOST, and the codes 9 and 10, which HOST reserves, as
UOP. Bits from `nbits` on are 0. -/
def tablePacket (nbits w : Nat) : Packet :=
  let bits := w % 2 ^ nbits
  let code := BitVec.ofNat 4 bits
  if code = 9 ∨ code = 10 then .uop code
  else .host ⟨code, BitVec.ofNat 64 (bits / 2 ^ 8), BitVec.ofNat 64 (bits / 2 ^ 72)⟩

/-- The number of an instruction's bits in the layout of `tablePacket`. -/
def packetBits : Packet → Nat
  | .host w => w.hop.toNat + 2 ^ 8 * w.haddr.toNat + 2 ^ 72 * w.hwdata.toNat
  | .uop ph => ph.toNat

/-- The instruction the decoder reads from a word numbered as spec/opcode_table.json numbers it. -/
def decodeTableWord (nbits w : Nat) : Option Instr :=
  match decode (tablePacket nbits w) with
  | .ok i => some i
  | .error _ => none

end Sys2Proof
end

