-- ==== Sys2Proof/Machine/Sequencer.lean ====
section
/-! DEFINITION. The sequencer: phase codes, the first micro-operation of a run, and the choice of what
the next step does. -/

namespace Sys2Proof.Machine

/-- The phase code (10 R24). -/
def Phase.code : Phase → BitVec 4
  | .idle => 0
  | .hInit => 1
  | .padCopy => 2
  | .padMark => 3
  | .padZero => 4
  | .padLen => 5
  | .schLoad => 6
  | .schExp => 7
  | .cmpInit => 8
  | .cmpRound => 9
  | .cmpFold => 10

/-- The phase of a code; 11 to 15 have none (30 R92). -/
def Phase.ofCode (c : BitVec 4) : Option Phase :=
  [.idle, .hInit, .padCopy, .padMark, .padZero, .padLen, .schLoad, .schExp, .cmpInit, .cmpRound, .cmpFold][c.toNat]?

/-- `U_HINIT` (44 R205). -/
def execUHinit (s : State) : Result :=
  .next { s with hash := Rom.iv, pp := 0, ph := if s.len = 0 then .padMark else .padCopy }

/-- What the next step does. -/
inductive Action where
  /-- One instruction is executed. -/
  | run (i : Instr)
  /-- Nothing: the core waits for a host operation (44 R201, 60 R258; log entry 6). -/
  | wait
  /-- A reset event (70 R270). -/
  | reset
  /-- A reserved host operation code (30 R91). -/
  | refuse (hop : BitVec 4)
  deriving DecidableEq, Repr

/-- The sequencer's own step, selected by `ph` alone (44 R201, 30 R89). -/
def sequencerAction (ph : Phase) : Action :=
  match decode (.uop ph.code) with
  | .ok i => .run i
  | .error _ => .wait

/-- The next step: the first of the coming moves (44 R225); when none is listed the host is silent, and
the sequencer steps if it can (70 R288; log entry 6). -/
def State.nextAction (s : State) : Action :=
  match s.inputs with
  | [] => sequencerAction s.ph
  | .sequencer :: _ => sequencerAction s.ph
  | .reset :: _ => .reset
  | .host w :: _ =>
    match decode (.host w) with
    | .ok i => .run i
    | .error _ => .refuse w.hop

/-- The state in which the very next step is the given packet's: a host operation is put first among the
coming moves; for a phase code the sequencer is put in that phase and given the step. A phase code that
has no phase is presented as a host operation code, which the port refuses (log entry 7). -/
def State.present (s : State) (p : Packet) : State :=
  match p with
  | .host w => { s with inputs := .host w :: s.inputs }
  | .uop c =>
    match Phase.ofCode c with
    | some ph => { s with ph := ph, inputs := .sequencer :: s.inputs }
    | none => { s with inputs := .host ⟨c, 0, 0⟩ :: s.inputs }

end Sys2Proof.Machine
end

