-- ==== Sys2Proof/Machine/Dispatch.lean ====
section
/-! DEFINITION. One arm per instruction. -/

namespace Sys2Proof.Machine

def exec (i : Instr) (s : State) : Host.Outcome State Fault Refusal :=
  match i with
  | .hnop => Sys2Proof.Machine.execHnop s
  | .hwrMsg haddr hwdata => Sys2Proof.Machine.execHwrMsg haddr hwdata s
  | .hwrLen hwdata => Sys2Proof.Machine.execHwrLen hwdata s
  | .hstart => Sys2Proof.Machine.execHstart s
  | .hrdStatus => Sys2Proof.Machine.execHrdStatus s
  | .hrdDigest haddr => Sys2Proof.Machine.execHrdDigest haddr s
  | .hrdIv haddr => Sys2Proof.Machine.execHrdIv haddr s
  | .hrdK haddr => Sys2Proof.Machine.execHrdK haddr s
  | .hrdLen => Sys2Proof.Machine.execHrdLen s
  | .uHinit => Sys2Proof.Machine.execUHinit s
  | .uPadcopy => Sys2Proof.Machine.execUPadcopy s
  | .uPadmark => Sys2Proof.Machine.execUPadmark s
  | .uPadzero => Sys2Proof.Machine.execUPadzero s
  | .uPadlen => Sys2Proof.Machine.execUPadlen s
  | .uSchload => Sys2Proof.Machine.execUSchload s
  | .uSchexp => Sys2Proof.Machine.execUSchexp s
  | .uCmpinit => Sys2Proof.Machine.execUCmpinit s
  | .uCmpround => Sys2Proof.Machine.execUCmpround s
  | .uCmpfold => Sys2Proof.Machine.execUCmpfold s

end Sys2Proof.Machine
end

