-- ==== Sys2Proof/Machine/Step.lean ====
section
/-! DEFINITION. One step, and the placing of an instruction where the next step finds it. -/

namespace Sys2Proof.Machine

/-- One atomic step (00 R5): the next of the coming moves is taken off the list and happens. -/
def step (s : State) : Host.Outcome State Fault Refusal :=
  match s.nextAction with
  | .run i => exec i s.advance
  | .wait => .next s.advance
  | .reset => .next s.advance.resetEvent
  | .refuse hop => .refused (.reservedHop hop)

/-- `s` with the instruction of a table word next (log entry 7). -/
def State.withFetchWord (s : State) (nbits w : Nat) : State := s.present (tablePacket nbits w)

end Sys2Proof.Machine
end

