-- ==== Sys2Proof/Machine/HostProgram.lean ====
section
/-! DEFINITION. The host's pseudo-instructions (30 R95), as the host carries them out on the machine: the
operations it issues, the answers it reads, its loop and its checks. The machine itself does not call
them. -/

namespace Sys2Proof.Machine

/-- What a host program comes to: a value with the state it leaves, or the stop of a step of it. -/
abbrev Reply (α : Type) := Host.Outcome (α × State) Fault Refusal

/-- Goes on after a step or a part of a host program that did not stop. -/
def thenDo {α β : Type} (r : Host.Outcome α Fault Refusal) (f : α → Host.Outcome β Fault Refusal) :
    Host.Outcome β Fault Refusal :=
  match r with
  | .next a => f a
  | .fault e => .fault e
  | .refused e => .refused e

/-- The host issues one operation: it is presented, and the step that follows takes it. -/
def State.issue (s : State) (w : HostWord) : Result := step { s with inputs := .host w :: s.inputs }

/-- The host issues operations one after another and keeps what each returns on `hrdata`. -/
def State.ask (s : State) (ws : List HostWord) : Reply (List Dword) :=
  match ws with
  | [] => .next ([], s)
  | w :: rest =>
    thenDo (s.issue w) fun u => thenDo (u.ask rest) fun r => .next (u.hrdata :: r.1, r.2)

/-- The sequencer is given `n` steps, or as many as it has: while idle it has none (44 R201, R225). -/
def State.grant (s : State) (n : Nat) : Result :=
  match n with
  | 0 => .next s
  | k + 1 =>
    if s.busy then thenDo (step { s with inputs := .sequencer :: s.inputs }) fun u => u.grant k else .next s

/-! ### The expansions without a loop -/

/-- `HWR_MSG p, b0; HWR_MSG p+1, b1; …`. -/
def writeBytesOps (p : Nat) (bs : List Byte) : List HostWord :=
  match bs with
  | [] => []
  | b :: rest => ⟨1, BitVec.ofNat 64 p, b.setWidth 64⟩ :: writeBytesOps (p + 1) rest

/-- `LOADMSG b0 … b(n-1)`, which has an expansion where `n` is an operand of `HWR_LEN`, 64 bits (30 R88). -/
def loadMsgOps (bs : List Byte) : Option (List HostWord) :=
  if bs.length < 2 ^ 64 then some (writeBytesOps 0 bs ++ [⟨2, 0, BitVec.ofNat 64 bs.length⟩]) else none

/-- `HRD_DIGEST j; HRD_DIGEST j+1; …`, `n` of them. -/
def readBytesOps (j n : Nat) : List HostWord :=
  match n with
  | 0 => []
  | k + 1 => ⟨5, BitVec.ofNat 64 j, 0⟩ :: readBytesOps (j + 1) k

/-- `READDIGEST`. -/
def readDigestOps : List HostWord := readBytesOps 0 32

/-- The 32 bytes `READDIGEST` returns, in order. -/
def State.readDigest (s : State) : Reply (List Byte) :=
  thenDo (s.ask readDigestOps) fun r => .next (r.1.map dataByte, r.2)

/-! ### `WAIT` and `DIGEST` -/

/-- `WAIT`: `HRD_STATUS` is repeated until the returned word has bit 0 (`BUSY`) equal to 0. How many steps
the sequencer gets before each read is not said (44 R225); `gaps` lists them, one entry a read (log entry
10). The value says whether the loop has ended, which it has not while `gaps` allowed no more reads. -/
def State.wait (s : State) (gaps : List Nat) : Reply Bool :=
  match gaps with
  | [] => .next (false, s)
  | n :: rest =>
    thenDo (s.grant n) fun u => thenDo (u.issue ⟨4, 0, 0⟩) fun v =>
      if v.hrdata.getLsbD 0 then v.wait rest else .next (true, v)

/-- What `DIGEST` comes to (30 R95). -/
inductive DigestReply where
  /-- `VALID = 1` and `ERR = 0`: the 32 bytes of the digest. -/
  | digest (bytes : List Byte)
  /-- `ERR = 1` in place of `VALID = 1`: the rejection with `InputTooLarge`. -/
  | inputTooLarge
  /-- `VALID = 0` and `ERR = 0`: the check fails and nothing is read. -/
  | notValid
  /-- `WAIT` has not ended. -/
  | stillWaiting
  /-- `LOADMSG` has no expansion, for `2^64` bytes or more; nothing is issued. -/
  | noExpansion
  deriving DecidableEq, Repr

/-- The check after `WAIT`, on the word `HRD_STATUS` returned, and what follows it (30 R95). -/
def State.finishDigest (s : State) (status : Dword) : Reply DigestReply :=
  if status.getLsbD 2 then .next (.inputTooLarge, s)
  else if status.getLsbD 1 then thenDo s.readDigest fun r => .next (.digest r.1, r.2)
  else .next (.notValid, s)

/-- `DIGEST` after `LOADMSG`: `HSTART`, `WAIT`, `HRD_STATUS` and its check, `READDIGEST`. -/
def State.startAndRead (s : State) (gaps : List Nat) : Reply DigestReply :=
  thenDo (s.issue ⟨3, 0, 0⟩) fun u =>
    thenDo (u.wait gaps) fun r =>
      if r.1 then thenDo (r.2.issue ⟨4, 0, 0⟩) fun v => v.finishDigest v.hrdata
      else .next (.stillWaiting, r.2)

/-- `DIGEST b0 … b(n-1)` (30 R95). -/
def State.digest (s : State) (bs : List Byte) (gaps : List Nat) : Reply DigestReply :=
  match loadMsgOps bs with
  | some ops => thenDo (s.ask ops) fun r => r.2.startAndRead gaps
  | none => .next (.noExpansion, s)

end Sys2Proof.Machine
end

