-- ==== Sys2Proof/Machine/Functions.lean ====
section
/-! DEFINITION. The functions the rules define over whole messages: padding, schedule, block function
and digest. The machine itself does not call them; statements do. -/

namespace Sys2Proof.Machine

/-! ### Padding (spec 41) -/

/-- `zfill(L) = (55 - L) mod 64`, the non-negative remainder (41 R131). -/
def zfill (l : Nat) : Nat := (55 + (64 - l % 64)) % 64

/-- `nblk(L) = ceil((L + 9) / 64)` (41 R131, 90 C1, C5). -/
def nblk (l : Nat) : Nat := (l + 9 + 63) / 64

/-- `pad(M)` (41 R130), which has a value only where the bit length fits its field, `8 * len(M) < 2^64`
(41 R133, 93 U1). -/
def padMessage (m : List Byte) : Option (List Byte) :=
  if 8 * m.length < 2 ^ 64 then
    some (m ++ [0x80] ++ List.replicate (zfill m.length) 0x00 ++
      be64Bytes (BitVec.ofNat 64 (8 * m.length)))
  else none

/-- `block(P, j) = P[64*j .. 64*j + 63]` (41 R140). -/
def block (p : List Byte) (j : Nat) : List Byte := (p.drop (64 * j)).take 64

/-! ### The schedule (spec 42) -/

/-- Word `i` of a block, big-endian (30 R81). -/
def blockWord (b : List Byte) (i : Nat) : Word :=
  be32 (b.getD (4 * i) 0) (b.getD (4 * i + 1) 0) (b.getD (4 * i + 2) 0) (b.getD (4 * i + 3) 0)

/-- Appends `n` derived words to a schedule of at least 16 words (42 R155). -/
def expand (n : Nat) (w : List Word) : List Word :=
  match n with
  | 0 => w
  | k + 1 =>
    expand k (w ++ [expandWord (w.getD (w.length - 16) 0) (w.getD (w.length - 15) 0)
      (w.getD (w.length - 7) 0) (w.getD (w.length - 2) 0)])

/-- `schedule(B)`, 64 words (42 R155). -/
def schedule (b : List Byte) : List Word := expand 48 ((List.range 16).map (blockWord b))

/-! ### The block function and the chaining (spec 43) -/

/-- `v(n)` of 43 R180: the working variables after rounds `0 .. n-1`, from `v`, on the schedule `w`. -/
def rounds (w : List Word) (v : Vars) (n : Nat) : Vars :=
  match n with
  | 0 => v
  | i + 1 => round (rounds w v i) ((Rom.kAt i).getD 0) (w.getD i 0)

/-- `compress(Hin, B)` (43 R180). -/
def compress (hin : Vector Word 8) (b : List Byte) : Vector Word 8 :=
  foldHash hin (rounds (schedule b) (Vars.ofVector hin) 64)

/-- `hs(j)` of 43 R181: the hash state after blocks `0 .. j-1` of `p`. -/
def chain (p : List Byte) (j : Nat) : Vector Word 8 :=
  match j with
  | 0 => Rom.iv
  | i + 1 => compress (chain p i) (block p i)

/-- `hash_blocks(P)` (43 R181). -/
def hashBlocks (p : List Byte) : Vector Word 8 := chain p (p.length / 64)

/-- `ser(H)`, the eight words big-endian and concatenated (43 R182). -/
def ser (hash : Vector Word 8) : List Byte := hash.toList.flatMap be32Bytes

/-- `sha256(M)` (44 R210): there is no digest where `pad(M)` has no value, `len(M) >= 2^61` (93 U1). -/
def sha256 (m : List Byte) : Option (List Byte) := (padMessage m).map fun p => ser (hashBlocks p)

/-- `hexdigit(n)` (43 R186). -/
def hexDigit (n : Nat) : Char := "0123456789abcdef".toList.getD n '0'

/-- `hex(D)` (43 R186, 90 C4): a presentation function; the core has no port for it. -/
def hex (d : List Byte) : List Char :=
  d.flatMap fun b => [hexDigit (b.toNat / 16), hexDigit (b.toNat % 16)]

/-- The number of sequencer steps of a run (44 R203): a count, not a time (70 R283). -/
def runLength (l : Nat) : Nat := 194 * nblk l - 6

end Sys2Proof.Machine
end

