-- ==== Sys2Proof/Safety.lean ====
section
/-! DEFINITION. What a good state is: the invariants of the rules, and a run computing the digest of a
message. -/

namespace Sys2Proof

/-- The host operations of 30 R87; the rest are the sequencer's micro-operations (30 R89). -/
def Instr.isHost : Instr → Bool
  | .hnop => true
  | .hwrMsg _ _ => true
  | .hwrLen _ => true
  | .hstart => true
  | .hrdStatus => true
  | .hrdDigest _ => true
  | .hrdIv _ => true
  | .hrdK _ => true
  | .hrdLen => true
  | .uHinit => false
  | .uPadcopy => false
  | .uPadmark => false
  | .uPadzero => false
  | .uPadlen => false
  | .uSchload => false
  | .uSchexp => false
  | .uCmpinit => false
  | .uCmpround => false
  | .uCmpfold => false

end Sys2Proof

namespace Sys2Proof.Machine

/-- The two memories are in canonical form and hold bytes at their own addresses only (20 R51, R52). -/
def State.MemoriesWf (s : State) : Prop :=
  s.msg.wf ∧ s.pad.wf ∧ (∀ c ∈ s.msg, c.1 < s.cfg.msgCap.val) ∧ (∀ c ∈ s.pad, c.1 < s.padCap)

/-- The invariants of the flags, 10 R28. -/
def State.FlagsWf (s : State) : Prop :=
  (s.busy = true → s.valid = false ∧ s.err = false) ∧ (s.valid = true → s.err = false) ∧
    (s.err = true ↔ s.ecause = 1) ∧ (s.ecause = 0 ∨ s.ecause = 1)

/-- What holds of the counters in each phase: the preconditions of the micro-operations' rules (41 R134
to R137, 42 R156, R157, 43 R178) and the bounds of 10 R25. While the core is idle nothing is asked. -/
def State.CountersWf (s : State) : Prop :=
  (s.busy = true → s.len.toNat ≤ s.cfg.msgCap.val) ∧
  match s.ph with
  | .idle => True
  | .hInit => True
  | .padCopy => s.pp.toNat < s.len.toNat
  | .padMark => s.pp = s.len
  | .padZero => s.len.toNat < s.pp.toNat ∧ s.pp.toNat + 8 < 64 * nblk s.len.toNat
  | .padLen => s.pp.toNat + 8 = 64 * nblk s.len.toNat
  | .schLoad => s.pp.toNat = 64 * nblk s.len.toNat ∧ s.blk.toNat < nblk s.len.toNat ∧ s.t.toNat ≤ 15
  | .schExp =>
    s.pp.toNat = 64 * nblk s.len.toNat ∧ s.blk.toNat < nblk s.len.toNat ∧ 16 ≤ s.t.toNat ∧ s.t.toNat ≤ 63
  | .cmpInit => s.pp.toNat = 64 * nblk s.len.toNat ∧ s.blk.toNat < nblk s.len.toNat ∧ s.t = 64
  | .cmpRound => s.pp.toNat = 64 * nblk s.len.toNat ∧ s.blk.toNat < nblk s.len.toNat ∧ s.t.toNat ≤ 63
  | .cmpFold => s.pp.toNat = 64 * nblk s.len.toNat ∧ s.blk.toNat < nblk s.len.toNat ∧ s.t = 64

/-- Every byte of `PAD` the padder has passed holds a value, so `U_SCHLOAD` draws none (10 R33). -/
def State.PaddedHeld (s : State) : Prop :=
  s.ph ≠ .idle → s.ph ≠ .hInit → ∀ q < s.pp.toNat, (s.pad.read q).isSome = true

/-- The invariant of the machine. -/
def State.Inv (s : State) : Prop :=
  s.MemoriesWf ∧ s.FlagsWf ∧ s.CountersWf ∧ s.PaddedHeld

/-- How many sequencer steps of the run are still to come (44 R202, R203). -/
def State.stepsLeft (s : State) : Nat :=
  let l := s.len.toNat
  let n := nblk l
  match s.ph with
  | .idle => 0
  | .hInit => runLength l
  | .padCopy => (l - s.pp.toNat) + zfill l + 2 + 130 * n
  | .padMark => zfill l + 2 + 130 * n
  | .padZero => (64 * n - 8 - s.pp.toNat) + 1 + 130 * n
  | .padLen => 1 + 130 * n
  | .schLoad => (130 - s.t.toNat) + 130 * (n - 1 - s.blk.toNat)
  | .schExp => (130 - s.t.toNat) + 130 * (n - 1 - s.blk.toNat)
  | .cmpInit => 66 + 130 * (n - 1 - s.blk.toNat)
  | .cmpRound => (65 - s.t.toNat) + 130 * (n - 1 - s.blk.toNat)
  | .cmpFold => 1 + 130 * (n - 1 - s.blk.toNat)

/-- `MSG[0 .. LEN-1]` holds the message `m` (20 R51). -/
def State.HoldsMessage (s : State) (m : List Byte) : Prop :=
  s.len.toNat = m.length ∧ ∀ p < m.length, s.msg.read p = m[p]?

/-- What a run on a message whose padding is `p` has computed so far, phase by phase: the prefix of `p` in
`PAD` (20 R52), the words of `schedule` (42 R158), the rounds done (43 R180), the chaining value (43 R181). -/
def State.ComputingPadded (s : State) (p : List Byte) : Prop :=
  let w := schedule (block p s.blk.toNat)
  let padded := ∀ q < s.pp.toNat, s.pad.read q = p[q]?
  let chained := s.hash = chain p s.blk.toNat
  match s.ph with
  | .idle => False
  | .hInit => True
  | .padCopy => padded ∧ s.hash = Rom.iv
  | .padMark => padded ∧ s.hash = Rom.iv
  | .padZero => padded ∧ s.hash = Rom.iv
  | .padLen => padded ∧ s.hash = Rom.iv
  | .schLoad => padded ∧ chained ∧ ∀ i < s.t.toNat, s.schedAt i = w[i]?
  | .schExp => padded ∧ chained ∧ ∀ i < s.t.toNat, s.schedAt i = w[i]?
  | .cmpInit => padded ∧ chained ∧ ∀ i < 64, s.schedAt i = w[i]?
  | .cmpRound =>
    padded ∧ chained ∧ (∀ i < 64, s.schedAt i = w[i]?) ∧
      s.vars = rounds w (Vars.ofVector s.hash) s.t.toNat
  | .cmpFold =>
    padded ∧ chained ∧ s.vars = rounds w (Vars.ofVector s.hash) 64

/-- A run on the message `m`, which has a padding (41 R133), is in progress and has computed what it
should have so far. -/
def State.Computing (s : State) (m : List Byte) : Prop :=
  s.HoldsMessage m ∧ ∃ p, padMessage m = some p ∧ s.ComputingPadded p

/-- The run on `m` is over and its digest is to be read (44 R204, R211). -/
def State.Finished (s : State) (m : List Byte) : Prop :=
  s.ph = .idle ∧ s.valid = true ∧ s.err = false ∧
    ∃ d, sha256 m = some d ∧ ∀ j < 32, s.dig j = d[j]?

/-- The next step is a reset event. -/
def State.resetNext (s : State) : Bool :=
  match s.inputs with
  | .reset :: _ => true
  | _ => false

/-- The next step is a host's `HSTART`. -/
def State.startNext (s : State) : Bool :=
  match s.inputs with
  | .host w :: _ => w.hop == 3
  | _ => false

/-- The next step is the sequencer's own. -/
def State.sequencerNext (s : State) : Bool :=
  match s.inputs with
  | [] => true
  | .sequencer :: _ => true
  | _ => false

/-- Coming moves without a reset event and without a reserved host operation code. -/
def quietInputs (inputs : List Input) : Prop :=
  ∀ i ∈ inputs, match i with
    | .host w => w.hop ≤ 8
    | .sequencer => True
    | .reset => False

end Sys2Proof.Machine
end

