-- ==== Sys2Proof/Certificates/Slice0/Obligations.lean ====
section
/-! DEFINITION. The statements for the provers. Each cites the rules of spec/ it formalises. -/

open Sys2Proof Sys2Proof.Machine

/-! ### Encodings -/

/-- 30 R87, R88, R93: each host operation code with its operands, whatever the ignored buses hold, and
the reserved codes. -/
def Obligations.HostCodesDecodeAsTabulated : Prop :=
  (∀ a d : Dword,
    decode (.host ⟨0b0000#4, a, d⟩) = .ok .hnop ∧
    decode (.host ⟨0b0001#4, a, d⟩) = .ok (.hwrMsg a d) ∧
    decode (.host ⟨0b0010#4, a, d⟩) = .ok (.hwrLen d) ∧
    decode (.host ⟨0b0011#4, a, d⟩) = .ok .hstart ∧
    decode (.host ⟨0b0100#4, a, d⟩) = .ok .hrdStatus ∧
    decode (.host ⟨0b0101#4, a, d⟩) = .ok (.hrdDigest a) ∧
    decode (.host ⟨0b0110#4, a, d⟩) = .ok (.hrdIv a) ∧
    decode (.host ⟨0b0111#4, a, d⟩) = .ok (.hrdK a) ∧
    decode (.host ⟨0b1000#4, a, d⟩) = .ok .hrdLen) ∧
  ∀ w : HostWord, 9 ≤ w.hop → decode (.host w) = .error (.reservedHop w.hop)

/-- 10 R24, 30 R89, R92: the code of each phase and the micro-operation it selects. -/
def Obligations.PhaseCodesSelectMicroOperations : Prop :=
  (Phase.idle.code = 0b0000#4 ∧ decode (.uop 0b0000#4) = .error .idlePhase) ∧
  (Phase.hInit.code = 0b0001#4 ∧ decode (.uop 0b0001#4) = .ok .uHinit) ∧
  (Phase.padCopy.code = 0b0010#4 ∧ decode (.uop 0b0010#4) = .ok .uPadcopy) ∧
  (Phase.padMark.code = 0b0011#4 ∧ decode (.uop 0b0011#4) = .ok .uPadmark) ∧
  (Phase.padZero.code = 0b0100#4 ∧ decode (.uop 0b0100#4) = .ok .uPadzero) ∧
  (Phase.padLen.code = 0b0101#4 ∧ decode (.uop 0b0101#4) = .ok .uPadlen) ∧
  (Phase.schLoad.code = 0b0110#4 ∧ decode (.uop 0b0110#4) = .ok .uSchload) ∧
  (Phase.schExp.code = 0b0111#4 ∧ decode (.uop 0b0111#4) = .ok .uSchexp) ∧
  (Phase.cmpInit.code = 0b1000#4 ∧ decode (.uop 0b1000#4) = .ok .uCmpinit) ∧
  (Phase.cmpRound.code = 0b1001#4 ∧ decode (.uop 0b1001#4) = .ok .uCmpround) ∧
  (Phase.cmpFold.code = 0b1010#4 ∧ decode (.uop 0b1010#4) = .ok .uCmpfold) ∧
  ∀ c : BitVec 4, 11 ≤ c → decode (.uop c) = .error (.reservedPhase c)

/-- 30 R87, R88, R89, R94: a packet decodes to an instruction exactly when it carries one and, with its
ignored buses written as 0, is that instruction's encoding. So the encoder and the decoder agree, and no
two packets that differ in a bit that is used decode alike. -/
def Obligations.DecodeInvertsEncode : Prop :=
  ∀ (p : Packet) (i : Instr), decode p = .ok i ↔ p.wellFormed = true ∧ p.canonical = encode i

/-- The layout of a table word is the model's own (log entry 7): every host operation, with every value
of its buses, is read back from the word it is laid out in. -/
def Obligations.TableWordsRoundTrip : Prop :=
  ∀ i : Instr, i.isHost = true → decodeTableWord 136 (packetBits (encode i)) = some i

/-! ### The step -/

/-- 30 R91: a host step with `hop` 9 to 15 is refused, by the code's name. -/
def Obligations.ReservedHostCodeIsRefused : Prop :=
  ∀ (s : State) (w : HostWord) (rest : List Input),
    s.inputs = .host w :: rest → 9 ≤ w.hop → step s = .refused (.reservedHop w.hop)

/-- 30 R80, 44 R200: a host step runs the operation the port's word decodes to, on the state with that
input taken off the list. -/
def Obligations.HostStepRunsDecodedInstruction : Prop :=
  ∀ (s : State) (w : HostWord) (rest : List Input) (i : Instr),
    s.inputs = .host w :: rest → decode (.host w) = .ok i → step s = exec i { s with inputs := rest }

/-- 44 R201: a sequencer step performs the micro-operation of `ph`; in `IDLE` the sequencer has none,
and the model's step then only takes its input off the list (the model's choice, log entry 6). -/
def Obligations.SequencerStepRunsThePhase : Prop :=
  ∀ s : State, s.sequencerNext = true →
    (∀ i, decode (.uop s.ph.code) = .ok i → step s = exec i { s with inputs := s.inputs.tail }) ∧
    (s.ph = .idle → step s = .next { s with inputs := s.inputs.tail })

/-- The model's own (log entry 7): an instruction placed by `withFetchWord` is the one the next step
runs, on the state it was placed in but for the phase, which a micro-operation's placing sets. -/
def Obligations.PlacedTableWordRunsNext : Prop :=
  ∀ (s : State) (nbits w : Nat) (i : Instr), decodeTableWord nbits w = some i →
    ∃ ph, step (s.withFetchWord nbits w) = exec i { s with ph := ph } ∧ (i.isHost = true → ph = s.ph)

/-! ### Reset -/

/-- 10 R32, 70 R273: what the spec gives of the state after reset, and what the host reads first. -/
def Obligations.ResetStateIsIdleAndClear : Prop :=
  State.reset.ph = .idle ∧ State.reset.valid = false ∧ State.reset.err = false ∧
  State.reset.ecause = 0 ∧ State.reset.len = 0 ∧ State.reset.status = 0 ∧
  (∀ a, State.reset.msg.read a = none ∧ State.reset.pad.read a = none) ∧
  exec .hrdStatus State.reset = .next { State.reset with hrdata := 0 } ∧
  exec .hrdLen State.reset = .next { State.reset with hrdata := 0 }

/-- 70 R270, R271: a reset event, in any state, a run in progress included. The parameter and the coming
inputs are not touched. -/
def Obligations.ResetEventClearsControlState : Prop :=
  ∀ (s : State) (rest : List Input), s.inputs = .reset :: rest →
    ∃ u, step s = .next u ∧ u.ph = .idle ∧ u.valid = false ∧ u.err = false ∧ u.ecause = 0 ∧ u.len = 0 ∧
      u.status = 0 ∧ u.cfg = s.cfg ∧ u.inputs = rest ∧
      ∀ a, u.msg.read a = none ∧ u.pad.read a = none

/-- 70 R271: nothing of the interrupted run, and nothing the memories, the registers, the flags or `LEN`
held, can be observed after a reset event: two cores that differ in those only are one core after it. -/
def Obligations.ResetForgetsTheInterruptedRun : Prop :=
  ∀ (s u : State) (rest : List Input), s.inputs = .reset :: rest → u.inputs = .reset :: rest →
    s.cfg = u.cfg → s.hrdata = u.hrdata → s.draws = u.draws → step s = step u

/-! ### Flags -/

/-- 10 R27: the bits of `STATUS`. -/
def Obligations.StatusWordLayout : Prop :=
  ∀ s : State,
    s.status.getLsbD 0 = decide (s.ph ≠ .idle) ∧ s.status.getLsbD 1 = s.valid ∧ s.status.getLsbD 2 = s.err ∧
    (∀ i, 3 ≤ i → i ≤ 7 → s.status.getLsbD i = false) ∧
    (∀ i, i < 4 → s.status.getLsbD (8 + i) = s.ecause.getLsbD i) ∧
    (∀ i, 12 ≤ i → s.status.getLsbD i = false)

/-- 10 R28, 44 R219: in a state that meets the flags' invariants `STATUS` is one of four values. -/
def Obligations.StatusTakesFourValues : Prop :=
  ∀ s : State, s.FlagsWf →
    (s.status = 0x001 ↔ s.ph ≠ .idle) ∧ (s.status = 0x002 ↔ s.valid = true) ∧
    (s.status = 0x104 ↔ s.err = true) ∧
    (s.status = 0x000 ∨ s.status = 0x001 ∨ s.status = 0x002 ∨ s.status = 0x104)

/-! ### Host operations -/

/-- 44 R215: its code, and its effect in every state; only `hrdata` changes. -/
def Obligations.HnopAnswersZero : Prop :=
  (∀ a d : Dword, decode (.host ⟨0b0000#4, a, d⟩) = .ok .hnop) ∧
  ∀ s : State, exec .hnop s = .next { s with hrdata := 0 }

/-- 44 R216: while idle and inside the memory, one byte is stored, `hwdata[7:0]`, and every other byte
reads as before; otherwise nothing is stored. Nothing else changes but `hrdata`. -/
def Obligations.HwrMsgStoresOneByte : Prop :=
  ∀ (s : State) (p d : Dword),
    (s.ph = .idle → p.toNat < s.cfg.msgCap.val →
      ∃ u, exec (.hwrMsg p d) s = .next u ∧ u = { s with msg := u.msg, hrdata := 0 } ∧
        u.msg.read p.toNat = some (d.extractLsb' 0 8) ∧
        ∀ q, q ≠ p.toNat → u.msg.read q = s.msg.read q) ∧
    (s.ph ≠ .idle ∨ s.cfg.msgCap.val ≤ p.toNat →
      exec (.hwrMsg p d) s = .next { s with hrdata := 0 })

/-- 44 R217: while idle every 64-bit value is stored as written; while busy the write is ignored. -/
def Obligations.HwrLenStoresTheLength : Prop :=
  ∀ (s : State) (n : Dword),
    (s.ph = .idle → exec (.hwrLen n) s = .next { s with len := n, hrdata := 0 }) ∧
    (s.ph ≠ .idle → exec (.hwrLen n) s = .next { s with hrdata := 0 })

/-- 44 R213: while busy the writes and the start change no state and return 0, and the reads and `HNOP`
answer as at any time. -/
def Obligations.BusyGateDropsWritesAndStarts : Prop :=
  ∀ s : State, s.ph ≠ .idle →
    (∀ p d, exec (.hwrMsg p d) s = .next { s with hrdata := 0 }) ∧
    (∀ n, exec (.hwrLen n) s = .next { s with hrdata := 0 }) ∧
    exec .hstart s = .next { s with hrdata := 0 } ∧
    exec .hrdStatus s = .next { s with hrdata := s.status } ∧
    exec .hrdLen s = .next { s with hrdata := s.len } ∧
    ∀ a, (∃ u, exec (.hrdDigest a) s = .next u) ∧ (∃ u, exec (.hrdIv a) s = .next u) ∧
      ∃ u, exec (.hrdK a) s = .next u

/-- 44 R218: a start that fits is accepted: the flags are cleared and the run begins. -/
def Obligations.HstartAcceptedStartsARun : Prop :=
  ∀ s : State, s.ph = .idle → 8 * s.len.toNat < 2 ^ 64 → s.len.toNat ≤ s.cfg.msgCap.val →
    exec .hstart s =
      .next { s with valid := false, err := false, ecause := 0, ph := .hInit, hrdata := 0 }

/-- 44 R218, 60 R241, R242, R244, R245: a start that does not fit raises `InputTooLarge`: `ERR`,
`ECAUSE` and `VALID` are written, everything else is exactly as before, and the host then reads 0x104. -/
def Obligations.HstartRejectsTooLargeInput : Prop :=
  ∀ s : State, s.ph = .idle → 2 ^ 64 ≤ 8 * s.len.toNat ∨ s.cfg.msgCap.val < s.len.toNat →
    exec .hstart s = .next { s with valid := false, err := true, ecause := 1, hrdata := 0 } ∧
    ({ s with valid := false, err := true, ecause := 1, hrdata := 0 } : State).status = 0x104

/-- 60 R241, R242, 00 R6: the test is on the exact product, so a length of 2^61 or more is rejected under
every capacity, and otherwise the capacity decides. -/
def Obligations.InputTooLargeIsExact : Prop :=
  ∀ s : State, (2 ^ 61 ≤ s.len.toNat → s.inputTooLarge = true) ∧
    (s.inputTooLarge = true ↔ s.cfg.msgCap.val < s.len.toNat)

/-- 44 R219: only `hrdata` changes; reading clears nothing. -/
def Obligations.HrdStatusReadsStatus : Prop :=
  ∀ s : State, exec .hrdStatus s = .next { s with hrdata := s.status }

/-- 44 R220, 43 R183, 20 R54: with `VALID = 1` and an index of the window, the answer is that byte of the
serialised hash state, zero-extended, and nothing else changes. -/
def Obligations.HrdDigestReadsTheWindow : Prop :=
  ∀ (s : State) (j : Dword), s.valid = true → j.toNat ≤ 31 →
    ∃ b, (ser s.hash)[j.toNat]? = some b ∧
      exec (.hrdDigest j) s = .next { s with hrdata := b.setWidth 64 }

/-- 20 R59, 44 R220, R221, R222, 93 U2, U4: a read whose value is unspecified completes, answers the free
value of its draw, whatever that is, and changes nothing else (`draws` is the model's own count of those
values, log entry 2). The index is not reduced. -/
def Obligations.UnspecifiedReadsAnswerAFreeValue : Prop :=
  ∀ (s : State) (j : Dword),
    (s.valid = false ∨ 32 ≤ j.toNat →
      exec (.hrdDigest j) s = .next { s with hrdata := Config.freeReturn s.draws, draws := s.draws + 1 }) ∧
    (8 ≤ j.toNat →
      exec (.hrdIv j) s = .next { s with hrdata := Config.freeReturn s.draws, draws := s.draws + 1 }) ∧
    (64 ≤ j.toNat →
      exec (.hrdK j) s = .next { s with hrdata := Config.freeReturn s.draws, draws := s.draws + 1 })

/-- 44 R221, R222, 40 R119: an index of the tables returns the ROM's word, zero-extended, in every state,
and nothing else changes. -/
def Obligations.RomReadsReturnTheWord : Prop :=
  (∀ (s : State) (k : Dword) (h : k.toNat < 8),
    exec (.hrdIv k) s = .next { s with hrdata := (Rom.iv[k.toNat]'h).setWidth 64 }) ∧
  ∀ (s : State) (i : Dword) (h : i.toNat < 64),
    exec (.hrdK i) s = .next { s with hrdata := (Rom.k[i.toNat]'h).setWidth 64 }

/-- 44 R223: its code, and its effect in every state; only `hrdata` changes. -/
def Obligations.HrdLenReadsTheLength : Prop :=
  (∀ a d : Dword, decode (.host ⟨0b1000#4, a, d⟩) = .ok .hrdLen) ∧
  ∀ s : State, exec .hrdLen s = .next { s with hrdata := s.len }

/-! ### Micro-operations -/

/-- 44 R205: its phase code; all eight hash words, the pad pointer, the phase, and nothing else. -/
def Obligations.UHinitLoadsTheInitialHash : Prop :=
  decode (.uop Phase.hInit.code) = .ok .uHinit ∧ Phase.hInit.code = 0b0001#4 ∧
  ∀ s : State, exec .uHinit s = .next { s with
    hash := #v[0x6a09e667, 0xbb67ae85, 0x3c6ef372, 0xa54ff53a, 0x510e527f, 0x9b05688c, 0x1f83d9ab, 0x5be0cd19]
    pp := 0
    ph := if s.len = 0 then .padMark else .padCopy }

/-- 41 R134, 20 R51: at an address `MSG` has, the byte held there is stored at `pp`, every other byte of
`PAD` reads as before, `pp` and `ph` move on, and nothing else changes. Where the host never wrote the
byte the copy still completes, with some byte (93 U3; `draws` is the model's count of free values). -/
def Obligations.UPadcopyCopiesOneByte : Prop :=
  ∀ s : State, s.pp.toNat < s.cfg.msgCap.val →
    ∃ u b, exec .uPadcopy s = .next u ∧
      u = { s with
        pad := u.pad
        pp := s.pp + 1
        ph := if s.pp.toNat + 1 = s.len.toNat then .padMark else .padCopy
        draws := u.draws } ∧
      u.pad.read s.pp.toNat = some b ∧
      (∀ q, q ≠ s.pp.toNat → u.pad.read q = s.pad.read q) ∧
      ((s.msg.read s.pp.toNat).isSome = true → s.msg.read s.pp.toNat = some b ∧ u.draws = s.draws)

/-- 41 R135: the terminator byte, at an address `PAD` has (20 R52). -/
def Obligations.UPadmarkAppendsTheTerminator : Prop :=
  ∀ s : State, s.pp.toNat < s.padCap →
    ∃ u, exec .uPadmark s = .next u ∧
      u = { s with
        pad := u.pad
        pp := s.pp + 1
        ph := if (s.pp.toNat + 1) % 64 = 56 then .padLen else .padZero } ∧
      u.pad.read s.pp.toNat = some 0x80 ∧ ∀ q, q ≠ s.pp.toNat → u.pad.read q = s.pad.read q

/-- 41 R136: one zero byte, at an address `PAD` has (20 R52). -/
def Obligations.UPadzeroAppendsOneZero : Prop :=
  ∀ s : State, s.pp.toNat < s.padCap →
    ∃ u, exec .uPadzero s = .next u ∧
      u = { s with
        pad := u.pad
        pp := s.pp + 1
        ph := if (s.pp.toNat + 1) % 64 = 56 then .padLen else .padZero } ∧
      u.pad.read s.pp.toNat = some 0x00 ∧ ∀ q, q ≠ s.pp.toNat → u.pad.read q = s.pad.read q

/-- 41 R137, 30 R83: the eight bytes of the exact bit length, most significant first, at addresses `PAD`
has; every other byte reads as before; the first block is opened. -/
def Obligations.UPadlenAppendsTheBitLength : Prop :=
  ∀ s : State, 8 * s.len.toNat < 2 ^ 64 → s.pp.toNat + 8 ≤ s.padCap →
    ∃ u, exec .uPadlen s = .next u ∧
      u = { s with pad := u.pad, pp := s.pp + 8, blk := 0, t := 0, ph := .schLoad } ∧
      (∀ n, n < 8 →
        u.pad.read (s.pp.toNat + n) = some (BitVec.ofNat 8 (8 * s.len.toNat / 2 ^ (56 - 8 * n)))) ∧
      ∀ q, q < s.pp.toNat ∨ s.pp.toNat + 8 ≤ q → u.pad.read q = s.pad.read q

/-- 42 R156, 30 R81, 20 R56: four bytes of the block become `W[t]`, most significant first; every other
word of `W` is unchanged, `t` and `ph` move on, and nothing else changes. Where a byte of them holds no
value the load still completes (`draws` is the model's count of free values). -/
def Obligations.USchloadLoadsABigEndianWord : Prop :=
  ∀ s : State, s.t.toNat ≤ 15 → 64 * s.blk.toNat + 4 * s.t.toNat + 4 ≤ s.padCap →
    ∃ u, exec .uSchload s = .next u ∧
      u = { s with
        sched := u.sched
        t := s.t + 1
        ph := if s.t.toNat + 1 = 16 then .schExp else .schLoad
        draws := u.draws } ∧
      (∀ i, i ≠ s.t.toNat → u.sched[i]? = s.sched[i]?) ∧
      ∀ b0 b1 b2 b3 : Byte,
        s.pad.read (64 * s.blk.toNat + 4 * s.t.toNat) = some b0 →
        s.pad.read (64 * s.blk.toNat + 4 * s.t.toNat + 1) = some b1 →
        s.pad.read (64 * s.blk.toNat + 4 * s.t.toNat + 2) = some b2 →
        s.pad.read (64 * s.blk.toNat + 4 * s.t.toNat + 3) = some b3 →
        u.draws = s.draws ∧ ∃ w, u.sched[s.t.toNat]? = some w ∧
          w.toNat = b0.toNat * 2 ^ 24 + b1.toNat * 2 ^ 16 + b2.toNat * 2 ^ 8 + b3.toNat

/-- 42 R157, R155: its phase code; `W[t]` from the four source words; every other word of `W` is
unchanged, `t` and `ph` move on, and nothing else changes. -/
def Obligations.USchexpDerivesOneWord : Prop :=
  decode (.uop Phase.schExp.code) = .ok .uSchexp ∧ Phase.schExp.code = 0b0111#4 ∧
  ∀ (s : State) (h1 : 16 ≤ s.t.toNat) (h2 : s.t.toNat ≤ 63),
    ∃ u, exec .uSchexp s = .next u ∧
      u = { s with
        sched := u.sched
        t := s.t + 1
        ph := if s.t.toNat + 1 = 64 then .cmpInit else .schExp } ∧
      (∀ i, i ≠ s.t.toNat → u.sched[i]? = s.sched[i]?) ∧
      u.sched[s.t.toNat]? = some (s.sched[s.t.toNat - 16] + ssig0 s.sched[s.t.toNat - 15] +
        s.sched[s.t.toNat - 7] + ssig1 s.sched[s.t.toNat - 2])

/-- 43 R177: the working variables are loaded from `H`; `t` and `ph` are set; nothing else changes. -/
def Obligations.UCmpinitLoadsTheWorkingVariables : Prop :=
  ∀ s : State, ∃ u, exec .uCmpinit s = .next u ∧
    u = { s with vars := u.vars, t := 0, ph := .cmpRound } ∧ u.vars.toVector = s.hash

/-- 43 R178, R175, R176: its phase code; one round on `K[t]` and `W[t]`, all eight new values from the old ones; `t` and
`ph` move on; nothing else changes. -/
def Obligations.UCmproundRunsOneRound : Prop :=
  decode (.uop Phase.cmpRound.code) = .ok .uCmpround ∧ Phase.cmpRound.code = 0b1001#4 ∧
  ∀ (s : State) (h : s.t.toNat < 64),
    let v := s.vars
    let t1 := v.h + bsig1 v.e + ch v.e v.f v.g + Rom.k[s.t.toNat] + s.sched[s.t.toNat]
    let t2 := bsig0 v.a + maj v.a v.b v.c
    exec .uCmpround s = .next { s with
      vars := ⟨t1 + t2, v.a, v.b, v.c, v.d + t1, v.e, v.f, v.g⟩
      t := s.t + 1
      ph := if s.t.toNat + 1 = 64 then .cmpFold else .cmpRound }

/-- 43 R179: its phase code; every hash word is folded and `blk` counts; at the last block, and only there, `VALID` is set
and the run ends; otherwise the next block is opened. Nothing else changes. -/
def Obligations.UCmpfoldFoldsAndClosesTheBlock : Prop :=
  decode (.uop Phase.cmpFold.code) = .ok .uCmpfold ∧ Phase.cmpFold.code = 0b1010#4 ∧
  ∀ s : State, ∃ u, exec .uCmpfold s = .next u ∧
    (∀ k (h : k < 8), u.hash[k] = s.hash[k] + s.vars.toVector[k]) ∧
    u = (if s.blk.toNat + 1 = s.pp.toNat / 64 then
          { s with hash := u.hash, blk := s.blk + 1, valid := true, ph := .idle }
        else { s with hash := u.hash, blk := s.blk + 1, t := 0, ph := .schLoad })

/-- The model's own (log entry 8): where a micro-operation names an address or an index that does not
exist, or a bit length that does not fit its field, it stops with the fault of that name. No state that
meets `State.Inv` does so. -/
def Obligations.ImpossibleAccessesFaultByName : Prop :=
  ∀ s : State,
    (s.cfg.msgCap.val ≤ s.pp.toNat → exec .uPadcopy s = .fault (.msgAddress s.pp.toNat)) ∧
    (s.padCap ≤ s.pp.toNat → exec .uPadmark s = .fault (.padAddress s.pp.toNat) ∧
      exec .uPadzero s = .fault (.padAddress s.pp.toNat)) ∧
    (2 ^ 64 ≤ 8 * s.len.toNat → exec .uPadlen s = .fault (.bitLength s.len.toNat)) ∧
    (8 * s.len.toNat < 2 ^ 64 → s.padCap < s.pp.toNat + 8 →
      exec .uPadlen s = .fault (.padAddress s.pp.toNat)) ∧
    (s.padCap < s.loadAddress + 4 → exec .uSchload s = .fault (.padAddress s.loadAddress)) ∧
    (s.loadAddress + 4 ≤ s.padCap → 64 ≤ s.t.toNat → exec .uSchload s = .fault (.wordIndex s.t.toNat)) ∧
    (s.t.toNat < 16 ∨ 64 ≤ s.t.toNat → exec .uSchexp s = .fault (.wordIndex s.t.toNat)) ∧
    (64 ≤ s.t.toNat → exec .uCmpround s = .fault (.wordIndex s.t.toNat))

/-! ### Word arithmetic and the ROM -/

/-- 42 R151: bit `i` of the result is bit `(i + n) mod 32` of `x`, and the rule's second form. -/
def Obligations.RotateRightMovesEachBit : Prop :=
  ∀ (x : Word) (n : Nat), 1 ≤ n → n ≤ 31 →
    (∀ i, i < 32 → (rotr x n).getLsbD i = x.getLsbD ((i + n) % 32)) ∧
    (rotr x n).toNat = x.toNat / 2 ^ n + x.toNat % 2 ^ n * 2 ^ (32 - n)

/-- 42 R150, R152, 00 R8: addition of two words and of several is modulo 2^32 and keeps no carry, `and`,
`xor` and `not` act on each bit alone, `not x` is 2^32 - 1 - x, and the shift divides. -/
def Obligations.AddWrapsAndShiftDivides : Prop :=
  (∀ x y : Word, (add32 x y).toNat = (x.toNat + y.toNat) % 2 ^ 32) ∧
  (∀ ws : List Word, (ws.foldl add32 0).toNat = (ws.map BitVec.toNat).sum % 2 ^ 32) ∧
  (∀ x y : Word, ∀ i < 32, (x &&& y).getLsbD i = (x.getLsbD i && y.getLsbD i) ∧
    (x ^^^ y).getLsbD i = (x.getLsbD i ^^ y.getLsbD i) ∧ (~~~x).getLsbD i = !x.getLsbD i) ∧
  (∀ x : Word, (~~~x).toNat = 2 ^ 32 - 1 - x.toNat) ∧
  ∀ (x : Word) (n : Nat), n ≤ 31 → (shr x n).toNat = x.toNat / 2 ^ n

/-- 43 R173, R174: `ch` chooses each bit, and `maj` is the bit held by at least two of the three, in
whatever order they come. -/
def Obligations.ChooseAndMajorityBitByBit : Prop :=
  ∀ (x y z : Word) (i : Nat), i < 32 →
    (ch x y z).getLsbD i = (if x.getLsbD i then y.getLsbD i else z.getLsbD i) ∧
    (maj x y z).getLsbD i =
      decide (2 ≤ (x.getLsbD i).toNat + (y.getLsbD i).toNat + (z.getLsbD i).toNat) ∧
    maj x y z = maj y x z ∧ maj x y z = maj x z y

/-- 42 R153, R154, 43 R171, R172: the four mixing functions bit by bit, with the rotation amounts of the
rules; the schedule's two take a shift, which brings in zeros. -/
def Obligations.SigmaFunctionsBitByBit : Prop :=
  ∀ (x : Word) (i : Nat), i < 32 →
    (ssig0 x).getLsbD i =
      ((x.getLsbD ((i + 7) % 32) ^^ x.getLsbD ((i + 18) % 32)) ^^ (decide (i + 3 < 32) && x.getLsbD (i + 3))) ∧
    (ssig1 x).getLsbD i =
      ((x.getLsbD ((i + 17) % 32) ^^ x.getLsbD ((i + 19) % 32)) ^^ (decide (i + 10 < 32) && x.getLsbD (i + 10))) ∧
    (bsig0 x).getLsbD i =
      ((x.getLsbD ((i + 2) % 32) ^^ x.getLsbD ((i + 13) % 32)) ^^ x.getLsbD ((i + 22) % 32)) ∧
    (bsig1 x).getLsbD i =
      ((x.getLsbD ((i + 6) % 32) ^^ x.getLsbD ((i + 11) % 32)) ^^ x.getLsbD ((i + 25) % 32))

/-- 40 R112, R113: the two forms of `frac_bits` agree and are below 2^32; each `IV[k]` is
`frac_bits` of the exact square root of the `k`-th prime, in integers `isqrt(prime(k) * 2^64) mod 2^32`. -/
def Obligations.RomHoldsSquareRootFractions : Prop :=
  (∀ (x : ℝ) (n : Nat), 0 ≤ x → FracBits x n → n = ⌊x * 2 ^ 32⌋₊ % 2 ^ 32 ∧ n < 2 ^ 32) ∧
  ∀ (k : Nat) (h : k < 8),
    FracBits (Real.sqrt (Nat.nth Nat.Prime k : ℝ)) (Rom.iv[k]).toNat ∧
    (Rom.iv[k]).toNat = Nat.sqrt (Nat.nth Nat.Prime k * 2 ^ 64) % 2 ^ 32

/-- 40 R114: each `K[i]` is `frac_bits` of the exact cube root of the `i`-th prime, in integers
`icbrt(prime(i) * 2^96) mod 2^32`. -/
def Obligations.RomHoldsCubeRootFractions : Prop :=
  ∀ (i : Nat) (h : i < 64),
    FracBits ((Nat.nth Nat.Prime i : ℝ) ^ ((1 : ℝ) / 3)) (Rom.k[i]).toNat ∧
    ∃ r, r * r * r ≤ Nat.nth Nat.Prime i * 2 ^ 96 ∧
      Nat.nth Nat.Prime i * 2 ^ 96 < (r + 1) * (r + 1) * (r + 1) ∧ (Rom.k[i]).toNat = r % 2 ^ 32

/-! ### Padding and the digest as functions -/

/-- 41 R131, 90 C1, C5: the zero fill is the least that lands on 56 modulo 64, in closed form
`(55 - L) mod 64`, and the padded length, where there is a padding (41 R133), is 64 bytes for each of
`ceil((L + 9) / 64)` blocks. -/
def Obligations.PaddingLengths : Prop :=
  (∀ l : Nat,
    (l + 1 + zfill l) % 64 = 56 ∧
    (∀ z, (l + 1 + z) % 64 = 56 → zfill l ≤ z) ∧
    (zfill l : Int) = (55 - (l : Int)) % 64 ∧ zfill l ≤ 63 ∧
    nblk l = ⌈((l : ℚ) + 9) / 64⌉₊ ∧
    64 * nblk l = ⌈(8 * (l : ℚ) + 1 + 64) / 512⌉₊ * 64) ∧
  ∀ m p : List Byte, padMessage m = some p →
    p.length = m.length + 1 + zfill m.length + 8 ∧ p.length = 64 * nblk m.length

/-- 41 R130, R132, R133, 30 R83, 93 U1: there is a padding exactly where the bit length fits 64 bits; what
each byte of it is, that it is one or more whole blocks, and that no two messages pad alike. -/
def Obligations.PaddedMessageLayoutAndInjectivity : Prop :=
  (∀ m : List Byte, (∃ p, padMessage m = some p) ↔ 8 * m.length < 2 ^ 64) ∧
  (∀ m p : List Byte, padMessage m = some p →
    (∀ q, q < m.length → p[q]? = m[q]?) ∧
    p[m.length]? = some 0x80 ∧
    (∀ q, m.length < q → q ≤ m.length + zfill m.length → p[q]? = some 0x00) ∧
    (∀ n, n < 8 → p[m.length + 1 + zfill m.length + n]? =
      some (BitVec.ofNat 8 (8 * m.length / 2 ^ (56 - 8 * n)))) ∧
    p.length = 64 * nblk m.length ∧ 1 ≤ nblk m.length) ∧
  ∀ m n p : List Byte, padMessage m = some p → padMessage n = some p → m = n

/-- 43 R182, R183, R184, 20 R54: the window is the serialised hash state, 32 bytes, each of them the
stated eight bits of its word, whatever the hash state; so a digest has 32 bytes and 64 hex characters. 44
R210: there is a digest exactly for a message of at most 2^61 - 1 bytes. -/
def Obligations.DigestIsThirtyTwoBytes : Prop :=
  (∀ s : State, (ser s.hash).length = 32 ∧ (∀ j, s.dig j = (ser s.hash)[j]?) ∧
    ∀ j (h : j < 32), s.dig j = some ((s.hash[j / 4]).extractLsb' (24 - 8 * (j % 4)) 8)) ∧
  (∀ m d : List Byte, sha256 m = some d → d.length = 32 ∧ (hex d).length = 64) ∧
  ∀ m : List Byte, (∃ d, sha256 m = some d) ↔ m.length ≤ 2 ^ 61 - 1

/-! ### Invariants and rules of the whole machine -/

/-- The invariant holds right after reset (10 R28, R32; the registers without a reset value play no part
in it). -/
def Obligations.ResetMeetsTheInvariant : Prop := State.reset.Inv

/-- 10 R25, R28, 20 R51, R52: every step, of either agent or of reset, keeps the invariant: memories in
canonical form and inside their spaces, the flags' invariants, and each phase's precondition. -/
def Obligations.StepKeepsTheInvariant : Prop :=
  ∀ s u : State, s.Inv → step s = .next u → u.Inv

/-- 44 R201, 60 R240: from a state that meets the invariant no step faults, and only a reserved host
operation code is refused. -/
def Obligations.StepNeverFaults : Prop :=
  ∀ s : State, s.Inv →
    (∃ u, step s = .next u) ∨
    ∃ w rest, s.inputs = .host w :: rest ∧ 9 ≤ w.hop ∧ step s = .refused (.reservedHop w.hop)

/-- 10 R34, 00 R6: no step writes the parameter. -/
def Obligations.ParameterIsNeverWritten : Prop :=
  ∀ s u : State, step s = .next u → u.cfg = s.cfg

/-- 10 R26, 44 R213: while a run is in progress no step but a reset event changes the message or its
length. -/
def Obligations.MessageIsFixedDuringARun : Prop :=
  ∀ s u : State, s.ph ≠ .idle → s.resetNext = false → step s = .next u → u.msg = s.msg ∧ u.len = s.len

/-- 41 R139, 70 R284: from the end of `U_PADLEN` to the `U_HINIT` of the next run no step but a reset event
changes the padded message or its length. -/
def Obligations.PaddedMessageIsNeverMutated : Prop :=
  ∀ s u : State,
    (s.ph = .schLoad ∨ s.ph = .schExp ∨ s.ph = .cmpInit ∨ s.ph = .cmpRound ∨ s.ph = .cmpFold ∨ s.ph = .idle) →
    s.resetNext = false → step s = .next u → u.pad = s.pad ∧ u.pp = s.pp

/-- 70 R282, 43 R179: `VALID` rises, and a run ends other than by a reset event, only in the sequencer's
fold of the last block, which does both. -/
def Obligations.ValidRisesOnlyAtTheLastFold : Prop :=
  ∀ s u : State, step s = .next u →
    s.valid = false ∧ u.valid = true ∨ s.ph ≠ .idle ∧ u.ph = .idle ∧ s.resetNext = false →
    s.sequencerNext = true ∧ s.ph = .cmpFold ∧ s.blk.toNat + 1 = s.pp.toNat / 64 ∧
      u.valid = true ∧ u.ph = .idle

/-- 70 R277, 20 R61, 10 R28: once `VALID = 1`, every step but an `HSTART` or a reset event leaves it so and
leaves every byte of the digest. -/
def Obligations.DigestIsStableUntilTheNextStart : Prop :=
  ∀ s u : State, s.FlagsWf → s.valid = true → s.startNext = false → s.resetNext = false →
    step s = .next u → u.valid = true ∧ ∀ j, u.dig j = s.dig j

/-- 44 R202: the phase graph, with the counters each transition writes and no others, and that nothing
but a sequencer step, an accepted start and a reset event moves `ph` or writes a counter. The arm for a
sequencer step while idle is the model's choice (log entry 6): R201 gives the sequencer no step there. -/
def Obligations.PhaseGraphTransitions : Prop :=
  ∀ s u : State, step s = .next u →
    (s.sequencerNext = true →
      match s.ph with
      | .idle => u.ph = .idle ∧ u.pp = s.pp ∧ u.blk = s.blk ∧ u.t = s.t
      | .hInit =>
        u.ph = (if s.len = 0 then .padMark else .padCopy) ∧ u.pp = 0 ∧ u.blk = s.blk ∧ u.t = s.t
      | .padCopy =>
        u.ph = (if s.pp.toNat + 1 = s.len.toNat then .padMark else .padCopy) ∧ u.pp = s.pp + 1 ∧
          u.blk = s.blk ∧ u.t = s.t
      | .padMark =>
        u.ph = (if (s.pp.toNat + 1) % 64 = 56 then .padLen else .padZero) ∧ u.pp = s.pp + 1 ∧
          u.blk = s.blk ∧ u.t = s.t
      | .padZero =>
        u.ph = (if (s.pp.toNat + 1) % 64 = 56 then .padLen else .padZero) ∧ u.pp = s.pp + 1 ∧
          u.blk = s.blk ∧ u.t = s.t
      | .padLen => u.ph = .schLoad ∧ u.pp = s.pp + 8 ∧ u.blk = 0 ∧ u.t = 0
      | .schLoad =>
        u.ph = (if s.t.toNat + 1 = 16 then .schExp else .schLoad) ∧ u.pp = s.pp ∧ u.blk = s.blk ∧
          u.t = s.t + 1
      | .schExp =>
        u.ph = (if s.t.toNat + 1 = 64 then .cmpInit else .schExp) ∧ u.pp = s.pp ∧ u.blk = s.blk ∧
          u.t = s.t + 1
      | .cmpInit => u.ph = .cmpRound ∧ u.pp = s.pp ∧ u.blk = s.blk ∧ u.t = 0
      | .cmpRound =>
        u.ph = (if s.t.toNat + 1 = 64 then .cmpFold else .cmpRound) ∧ u.pp = s.pp ∧ u.blk = s.blk ∧
          u.t = s.t + 1
      | .cmpFold =>
        u.pp = s.pp ∧ u.blk = s.blk + 1 ∧
          (if s.blk.toNat + 1 = s.pp.toNat / 64 then u.ph = .idle ∧ u.t = s.t else u.ph = .schLoad ∧ u.t = 0)) ∧
    (s.resetNext = true → u.ph = .idle) ∧
    (s.sequencerNext = false → s.resetNext = false →
      u.pp = s.pp ∧ u.blk = s.blk ∧ u.t = s.t ∧
      u.ph = (if s.startNext = true ∧ s.ph = .idle ∧ s.inputTooLarge = false then .hInit else s.ph))

/-- 70 R287: no message byte, padded byte, schedule word, hash word or working variable decides whether a
sequencer step completes, where it goes or what the counters and flags become. -/
def Obligations.ControlIgnoresData : Prop :=
  ∀ s u s' : State, s.sequencerNext = true →
    u = { s with
      msg := u.msg, pad := u.pad, sched := u.sched, hash := u.hash, vars := u.vars
      hrdata := u.hrdata, draws := u.draws } →
    step s = .next s' →
    ∃ u', step u = .next u' ∧ u'.ph = s'.ph ∧ u'.pp = s'.pp ∧ u'.blk = s'.blk ∧ u'.t = s'.t ∧
      u'.len = s'.len ∧ u'.valid = s'.valid ∧ u'.err = s'.err ∧ u'.ecause = s'.ecause

/-- 44 R213, R225, 20 R58, R60, 10 R31: every host operation completes in every state. While busy it changes
nothing but the answer; while idle it still cannot reach the hash state, the working variables, the
schedule, the padded message or the counters (`draws` is the model's own). -/
def Obligations.HostCannotDisturbTheCore : Prop :=
  ∀ (s : State) (i : Instr), i.isHost = true →
    ∃ u, exec i s = .next u ∧
      (s.ph ≠ .idle → u = { s with hrdata := u.hrdata, draws := u.draws }) ∧
      u = { s with
        ph := u.ph, len := u.len, valid := u.valid, err := u.err, ecause := u.ecause, msg := u.msg
        hrdata := u.hrdata, draws := u.draws }

/-- 10 R20, 20 R60, 43 R183, 70 R277, 93 U2: what the host is answered, and the flags it can read after,
depend on the working variables, the schedule, both memories and the counters not at all, and on the hash
state only while `VALID = 1`: so no chaining value and no partial digest is ever returned. -/
def Obligations.HiddenStateNeverReachesTheHost : Prop :=
  ∀ (s u s' : State) (i : Instr), i.isHost = true →
    u = { s with
      msg := u.msg, pad := u.pad, sched := u.sched, vars := u.vars, pp := u.pp, blk := u.blk, t := u.t
      hash := u.hash } →
    (s.valid = true → u.hash = s.hash) → exec i s = .next s' →
    ∃ u', exec i u = .next u' ∧ u'.hrdata = s'.hrdata ∧ u'.status = s'.status ∧ u'.len = s'.len

/-- 44 R203, 70 R288: each sequencer step of a run takes exactly one off the steps still to come, host
operations take none, an accepted start sets them to `194 * nblk(L) - 6`, and none are left exactly when
the core is idle; so every run ends. -/
def Obligations.StepsLeftCountsDown : Prop :=
  (∀ s : State, s.Inv → (s.stepsLeft = 0 ↔ s.ph = .idle)) ∧
  (∀ s : State, s.Inv → s.ph ≠ .idle → s.sequencerNext = true →
    ∃ u, step s = .next u ∧ u.stepsLeft + 1 = s.stepsLeft) ∧
  (∀ s u : State, s.ph ≠ .idle → s.sequencerNext = false → s.resetNext = false → step s = .next u →
    u.stepsLeft = s.stepsLeft) ∧
  ∀ s : State, s.ph = .idle → s.len.toNat ≤ s.cfg.msgCap.val →
    ∃ u, exec .hstart s = .next u ∧ u.stepsLeft = 194 * nblk s.len.toNat - 6

/-- 41 R138, 42 R158, 43 R180, R181, 44 R206, R212: an accepted start on a message held in `MSG` begins a
run that computes its digest, and every step but a reset event, of either agent, keeps it computing, until
the step that leaves the digest to be read. Nothing is asked of what the registers or `PAD` held before. -/
def Obligations.RunKeepsComputingTheDigest : Prop :=
  (∀ (s : State) (m : List Byte), s.ph = .idle → s.HoldsMessage m → m.length ≤ s.cfg.msgCap.val →
    ∃ u, exec .hstart s = .next u ∧ u.Computing m) ∧
  ∀ (s u : State) (m : List Byte), s.Inv → s.Computing m → s.resetNext = false → step s = .next u →
    u.Computing m ∨ u.Finished m

/-- 44 R211, R210: a start with the message in `MSG`, then the run's `194 * nblk(L) - 6` sequencer steps,
with any host operations in any places between them, lead to a state that is idle and valid and whose
window is `sha256(M)`. `moves` holds all of these moves but the last sequencer step.

30 R95: the host program `DIGEST`, from any idle state, with any number of sequencer steps before each read
of its `WAIT` (as an argument: the model's form, log entry 10): it returns the 32 bytes of `sha256(M)` where the run has ended by the last read, is still
waiting where it has not, and where the message is longer than `MSG_CAP` it ends with `InputTooLarge`. A
message of 2^61 bytes or more has no digest. -/
def Obligations.RunComputesSha256 : Prop :=
  (∀ (s : State) (m : List Byte) (a d : Dword) (moves tail : List Input),
    s.Inv → s.ph = .idle → s.HoldsMessage m → m.length ≤ s.cfg.msgCap.val →
    s.inputs = .host ⟨3, a, d⟩ :: (moves ++ .sequencer :: tail) → quietInputs moves →
    moves.count .sequencer + 1 = 194 * nblk m.length - 6 →
    ∃ u : State, Sys2Proof.core.run (1 + moves.length + 1) s = .next u ∧ u.Finished m ∧ u.inputs = tail) ∧
  (∀ m : List Byte, 2 ^ 61 ≤ m.length → sha256 m = none) ∧
  ∀ (s : State) (m : List Byte) (gaps : List Nat), s.Inv → s.ph = .idle →
    (m.length ≤ s.cfg.msgCap.val → gaps.sum < 194 * nblk m.length - 6 →
      ∃ u, s.digest m gaps = .next (.stillWaiting, u)) ∧
    (m.length ≤ s.cfg.msgCap.val → 194 * nblk m.length - 6 ≤ gaps.sum →
      ∃ u d, sha256 m = some d ∧ s.digest m gaps = .next (.digest d, u)) ∧
    (s.cfg.msgCap.val < m.length → m.length < 2 ^ 64 → gaps ≠ [] →
      ∃ u, s.digest m gaps = .next (.inputTooLarge, u))
end

