-- ==== Sys2Proof/Laws/Functions.lean ====
section
/-! SUPPORT. What the functions over whole messages give, said once. -/

namespace Sys2Proof.Machine

/-- The padded length in closed form (41 R131). -/
theorem length_add_zfill (l : Nat) : l + 1 + zfill l + 8 = 64 * nblk l := by
  unfold zfill nblk
  omega

theorem zfill_le (l : Nat) : zfill l ≤ 63 := by
  unfold zfill
  omega

theorem be64Bytes_length (x : Dword) : (be64Bytes x).length = 8 := rfl

theorem block_getElem? (p : List Byte) (j : Nat) {k : Nat} (hk : k < 64) :
    (block p j)[k]? = p[64 * j + k]? := by
  simp [block, hk]

theorem expand_length (n : Nat) (w : List Word) : (expand n w).length = w.length + n := by
  induction n generalizing w with
  | zero => rfl
  | succ k ih => rw [expand, ih]; simp; omega

/-- Expanding changes no word that is there. -/
theorem expand_prefix (n : Nat) {w : List Word} {i : Nat} (h : i < w.length) : (expand n w)[i]? = w[i]? := by
  induction n generalizing w with
  | zero => rfl
  | succ k ih => rw [expand, ih (by simp; omega), List.getElem?_append_left h]

/-- Every word appended is the recurrence's on the words before it. -/
theorem expand_derived (n : Nat) {w : List Word} {i : Nat} (h16 : 16 ≤ w.length) (h1 : w.length ≤ i)
    (h2 : i < w.length + n) :
    (expand n w)[i]? = some (expandWord ((expand n w).getD (i - 16) 0) ((expand n w).getD (i - 15) 0)
      ((expand n w).getD (i - 7) 0) ((expand n w).getD (i - 2) 0)) := by
  induction n generalizing w with
  | zero => omega
  | succ k ih =>
    rw [expand]
    rcases Nat.eq_or_lt_of_le h1 with rfl | hlt
    · have earlier : ∀ j, j < w.length → ∀ x : Word, (expand k (w ++ [x])).getD j 0 = w.getD j 0 := by
        intro j hj x
        rw [List.getD_eq_getElem?_getD, List.getD_eq_getElem?_getD, expand_prefix _ (by simp; omega),
          List.getElem?_append_left hj]
      rw [expand_prefix _ (by simp), List.getElem?_concat_length, earlier _ (by omega),
        earlier _ (by omega), earlier _ (by omega), earlier _ (by omega)]
    · exact ih (by simp; omega) (by simp; omega) (by simp; omega)

theorem schedule_length (b : List Byte) : (schedule b).length = 64 := by
  rw [schedule, expand_length]
  simp

/-- The first sixteen words of a schedule are the block's (42 R155). -/
theorem schedule_loaded (b : List Byte) {i : Nat} (h : i < 16) : (schedule b)[i]? = some (blockWord b i) := by
  rw [schedule, expand_prefix _ (by simpa using h)]
  simp [h]

/-- The other words of a schedule follow the recurrence (42 R155). -/
theorem schedule_derived (b : List Byte) {i : Nat} (h1 : 16 ≤ i) (h2 : i < 64) :
    (schedule b)[i]? = some (expandWord ((schedule b).getD (i - 16) 0) ((schedule b).getD (i - 15) 0)
      ((schedule b).getD (i - 7) 0) ((schedule b).getD (i - 2) 0)) :=
  expand_derived _ (by simp) (by simpa using h1) (by simpa using h2)

end Sys2Proof.Machine
end

