-- ==== Sys2Proof/Laws/State.lean ====
section
/-! SUPPORT. What each update of the state does to each field. -/

namespace Sys2Proof.Machine

variable (s : State)

/-! ### `answer` -/

@[simp] theorem State.answer_cfg (v : Dword) : (s.answer v).cfg = s.cfg := rfl
@[simp] theorem State.answer_vars (v : Dword) : (s.answer v).vars = s.vars := rfl
@[simp] theorem State.answer_hash (v : Dword) : (s.answer v).hash = s.hash := rfl
@[simp] theorem State.answer_sched (v : Dword) : (s.answer v).sched = s.sched := rfl
@[simp] theorem State.answer_ph (v : Dword) : (s.answer v).ph = s.ph := rfl
@[simp] theorem State.answer_pp (v : Dword) : (s.answer v).pp = s.pp := rfl
@[simp] theorem State.answer_blk (v : Dword) : (s.answer v).blk = s.blk := rfl
@[simp] theorem State.answer_t (v : Dword) : (s.answer v).t = s.t := rfl
@[simp] theorem State.answer_len (v : Dword) : (s.answer v).len = s.len := rfl
@[simp] theorem State.answer_valid (v : Dword) : (s.answer v).valid = s.valid := rfl
@[simp] theorem State.answer_err (v : Dword) : (s.answer v).err = s.err := rfl
@[simp] theorem State.answer_ecause (v : Dword) : (s.answer v).ecause = s.ecause := rfl
@[simp] theorem State.answer_msg (v : Dword) : (s.answer v).msg = s.msg := rfl
@[simp] theorem State.answer_pad (v : Dword) : (s.answer v).pad = s.pad := rfl
@[simp] theorem State.answer_hrdata (v : Dword) : (s.answer v).hrdata = v := rfl
@[simp] theorem State.answer_inputs (v : Dword) : (s.answer v).inputs = s.inputs := rfl
@[simp] theorem State.answer_draws (v : Dword) : (s.answer v).draws = s.draws := rfl

/-! ### `answerFree` -/

@[simp] theorem State.answerFree_cfg : (s.answerFree).cfg = s.cfg := rfl
@[simp] theorem State.answerFree_vars : (s.answerFree).vars = s.vars := rfl
@[simp] theorem State.answerFree_hash : (s.answerFree).hash = s.hash := rfl
@[simp] theorem State.answerFree_sched : (s.answerFree).sched = s.sched := rfl
@[simp] theorem State.answerFree_ph : (s.answerFree).ph = s.ph := rfl
@[simp] theorem State.answerFree_pp : (s.answerFree).pp = s.pp := rfl
@[simp] theorem State.answerFree_blk : (s.answerFree).blk = s.blk := rfl
@[simp] theorem State.answerFree_t : (s.answerFree).t = s.t := rfl
@[simp] theorem State.answerFree_len : (s.answerFree).len = s.len := rfl
@[simp] theorem State.answerFree_valid : (s.answerFree).valid = s.valid := rfl
@[simp] theorem State.answerFree_err : (s.answerFree).err = s.err := rfl
@[simp] theorem State.answerFree_ecause : (s.answerFree).ecause = s.ecause := rfl
@[simp] theorem State.answerFree_msg : (s.answerFree).msg = s.msg := rfl
@[simp] theorem State.answerFree_pad : (s.answerFree).pad = s.pad := rfl
@[simp] theorem State.answerFree_hrdata : (s.answerFree).hrdata = Config.freeReturn s.draws := rfl
@[simp] theorem State.answerFree_inputs : (s.answerFree).inputs = s.inputs := rfl
@[simp] theorem State.answerFree_draws : (s.answerFree).draws = s.draws + 1 := rfl

/-! ### `advance` -/

@[simp] theorem State.advance_cfg : (s.advance).cfg = s.cfg := rfl
@[simp] theorem State.advance_vars : (s.advance).vars = s.vars := rfl
@[simp] theorem State.advance_hash : (s.advance).hash = s.hash := rfl
@[simp] theorem State.advance_sched : (s.advance).sched = s.sched := rfl
@[simp] theorem State.advance_ph : (s.advance).ph = s.ph := rfl
@[simp] theorem State.advance_pp : (s.advance).pp = s.pp := rfl
@[simp] theorem State.advance_blk : (s.advance).blk = s.blk := rfl
@[simp] theorem State.advance_t : (s.advance).t = s.t := rfl
@[simp] theorem State.advance_len : (s.advance).len = s.len := rfl
@[simp] theorem State.advance_valid : (s.advance).valid = s.valid := rfl
@[simp] theorem State.advance_err : (s.advance).err = s.err := rfl
@[simp] theorem State.advance_ecause : (s.advance).ecause = s.ecause := rfl
@[simp] theorem State.advance_msg : (s.advance).msg = s.msg := rfl
@[simp] theorem State.advance_pad : (s.advance).pad = s.pad := rfl
@[simp] theorem State.advance_hrdata : (s.advance).hrdata = s.hrdata := rfl
@[simp] theorem State.advance_inputs : (s.advance).inputs = s.inputs.tail := rfl
@[simp] theorem State.advance_draws : (s.advance).draws = s.draws := rfl

/-! ### `drawByte` -/

@[simp] theorem State.drawByte_cfg : (s.drawByte.2).cfg = s.cfg := rfl
@[simp] theorem State.drawByte_vars : (s.drawByte.2).vars = s.vars := rfl
@[simp] theorem State.drawByte_hash : (s.drawByte.2).hash = s.hash := rfl
@[simp] theorem State.drawByte_sched : (s.drawByte.2).sched = s.sched := rfl
@[simp] theorem State.drawByte_ph : (s.drawByte.2).ph = s.ph := rfl
@[simp] theorem State.drawByte_pp : (s.drawByte.2).pp = s.pp := rfl
@[simp] theorem State.drawByte_blk : (s.drawByte.2).blk = s.blk := rfl
@[simp] theorem State.drawByte_t : (s.drawByte.2).t = s.t := rfl
@[simp] theorem State.drawByte_len : (s.drawByte.2).len = s.len := rfl
@[simp] theorem State.drawByte_valid : (s.drawByte.2).valid = s.valid := rfl
@[simp] theorem State.drawByte_err : (s.drawByte.2).err = s.err := rfl
@[simp] theorem State.drawByte_ecause : (s.drawByte.2).ecause = s.ecause := rfl
@[simp] theorem State.drawByte_msg : (s.drawByte.2).msg = s.msg := rfl
@[simp] theorem State.drawByte_pad : (s.drawByte.2).pad = s.pad := rfl
@[simp] theorem State.drawByte_hrdata : (s.drawByte.2).hrdata = s.hrdata := rfl
@[simp] theorem State.drawByte_inputs : (s.drawByte.2).inputs = s.inputs := rfl
@[simp] theorem State.drawByte_draws : (s.drawByte.2).draws = s.draws + 1 := rfl

/-! ### `raiseInputTooLarge` -/

@[simp] theorem State.raiseInputTooLarge_cfg : (s.raiseInputTooLarge).cfg = s.cfg := rfl
@[simp] theorem State.raiseInputTooLarge_vars : (s.raiseInputTooLarge).vars = s.vars := rfl
@[simp] theorem State.raiseInputTooLarge_hash : (s.raiseInputTooLarge).hash = s.hash := rfl
@[simp] theorem State.raiseInputTooLarge_sched : (s.raiseInputTooLarge).sched = s.sched := rfl
@[simp] theorem State.raiseInputTooLarge_ph : (s.raiseInputTooLarge).ph = s.ph := rfl
@[simp] theorem State.raiseInputTooLarge_pp : (s.raiseInputTooLarge).pp = s.pp := rfl
@[simp] theorem State.raiseInputTooLarge_blk : (s.raiseInputTooLarge).blk = s.blk := rfl
@[simp] theorem State.raiseInputTooLarge_t : (s.raiseInputTooLarge).t = s.t := rfl
@[simp] theorem State.raiseInputTooLarge_len : (s.raiseInputTooLarge).len = s.len := rfl
@[simp] theorem State.raiseInputTooLarge_valid : (s.raiseInputTooLarge).valid = false := rfl
@[simp] theorem State.raiseInputTooLarge_err : (s.raiseInputTooLarge).err = true := rfl
@[simp] theorem State.raiseInputTooLarge_ecause : (s.raiseInputTooLarge).ecause = 1 := rfl
@[simp] theorem State.raiseInputTooLarge_msg : (s.raiseInputTooLarge).msg = s.msg := rfl
@[simp] theorem State.raiseInputTooLarge_pad : (s.raiseInputTooLarge).pad = s.pad := rfl
@[simp] theorem State.raiseInputTooLarge_hrdata : (s.raiseInputTooLarge).hrdata = s.hrdata := rfl
@[simp] theorem State.raiseInputTooLarge_inputs : (s.raiseInputTooLarge).inputs = s.inputs := rfl
@[simp] theorem State.raiseInputTooLarge_draws : (s.raiseInputTooLarge).draws = s.draws := rfl

/-! ### `acceptStart` -/

@[simp] theorem State.acceptStart_cfg : (s.acceptStart).cfg = s.cfg := rfl
@[simp] theorem State.acceptStart_vars : (s.acceptStart).vars = s.vars := rfl
@[simp] theorem State.acceptStart_hash : (s.acceptStart).hash = s.hash := rfl
@[simp] theorem State.acceptStart_sched : (s.acceptStart).sched = s.sched := rfl
@[simp] theorem State.acceptStart_ph : (s.acceptStart).ph = .hInit := rfl
@[simp] theorem State.acceptStart_pp : (s.acceptStart).pp = s.pp := rfl
@[simp] theorem State.acceptStart_blk : (s.acceptStart).blk = s.blk := rfl
@[simp] theorem State.acceptStart_t : (s.acceptStart).t = s.t := rfl
@[simp] theorem State.acceptStart_len : (s.acceptStart).len = s.len := rfl
@[simp] theorem State.acceptStart_valid : (s.acceptStart).valid = false := rfl
@[simp] theorem State.acceptStart_err : (s.acceptStart).err = false := rfl
@[simp] theorem State.acceptStart_ecause : (s.acceptStart).ecause = 0 := rfl
@[simp] theorem State.acceptStart_msg : (s.acceptStart).msg = s.msg := rfl
@[simp] theorem State.acceptStart_pad : (s.acceptStart).pad = s.pad := rfl
@[simp] theorem State.acceptStart_hrdata : (s.acceptStart).hrdata = s.hrdata := rfl
@[simp] theorem State.acceptStart_inputs : (s.acceptStart).inputs = s.inputs := rfl
@[simp] theorem State.acceptStart_draws : (s.acceptStart).draws = s.draws := rfl

/-! ### `resetEvent` -/

@[simp] theorem State.resetEvent_cfg : s.resetEvent.cfg = s.cfg := rfl
@[simp] theorem State.resetEvent_ph : s.resetEvent.ph = .idle := rfl
@[simp] theorem State.resetEvent_len : s.resetEvent.len = 0 := rfl
@[simp] theorem State.resetEvent_valid : s.resetEvent.valid = false := rfl
@[simp] theorem State.resetEvent_err : s.resetEvent.err = false := rfl
@[simp] theorem State.resetEvent_ecause : s.resetEvent.ecause = 0 := rfl
@[simp] theorem State.resetEvent_msg : s.resetEvent.msg = [] := rfl
@[simp] theorem State.resetEvent_pad : s.resetEvent.pad = [] := rfl
@[simp] theorem State.resetEvent_hrdata : s.resetEvent.hrdata = s.hrdata := rfl
@[simp] theorem State.resetEvent_inputs : s.resetEvent.inputs = s.inputs := rfl
@[simp] theorem State.resetEvent_draws : s.resetEvent.draws = s.draws + 1 := rfl

/-! ### `writeMsg` -/

@[simp] theorem State.writeMsg_cfg (p : Nat) (b : Byte) : (s.writeMsg p b).cfg = s.cfg := by
  unfold State.writeMsg; split <;> rfl
@[simp] theorem State.writeMsg_vars (p : Nat) (b : Byte) : (s.writeMsg p b).vars = s.vars := by
  unfold State.writeMsg; split <;> rfl
@[simp] theorem State.writeMsg_hash (p : Nat) (b : Byte) : (s.writeMsg p b).hash = s.hash := by
  unfold State.writeMsg; split <;> rfl
@[simp] theorem State.writeMsg_sched (p : Nat) (b : Byte) : (s.writeMsg p b).sched = s.sched := by
  unfold State.writeMsg; split <;> rfl
@[simp] theorem State.writeMsg_ph (p : Nat) (b : Byte) : (s.writeMsg p b).ph = s.ph := by
  unfold State.writeMsg; split <;> rfl
@[simp] theorem State.writeMsg_pp (p : Nat) (b : Byte) : (s.writeMsg p b).pp = s.pp := by
  unfold State.writeMsg; split <;> rfl
@[simp] theorem State.writeMsg_blk (p : Nat) (b : Byte) : (s.writeMsg p b).blk = s.blk := by
  unfold State.writeMsg; split <;> rfl
@[simp] theorem State.writeMsg_t (p : Nat) (b : Byte) : (s.writeMsg p b).t = s.t := by
  unfold State.writeMsg; split <;> rfl
@[simp] theorem State.writeMsg_len (p : Nat) (b : Byte) : (s.writeMsg p b).len = s.len := by
  unfold State.writeMsg; split <;> rfl
@[simp] theorem State.writeMsg_valid (p : Nat) (b : Byte) : (s.writeMsg p b).valid = s.valid := by
  unfold State.writeMsg; split <;> rfl
@[simp] theorem State.writeMsg_err (p : Nat) (b : Byte) : (s.writeMsg p b).err = s.err := by
  unfold State.writeMsg; split <;> rfl
@[simp] theorem State.writeMsg_ecause (p : Nat) (b : Byte) : (s.writeMsg p b).ecause = s.ecause := by
  unfold State.writeMsg; split <;> rfl
@[simp] theorem State.writeMsg_pad (p : Nat) (b : Byte) : (s.writeMsg p b).pad = s.pad := by
  unfold State.writeMsg; split <;> rfl
@[simp] theorem State.writeMsg_hrdata (p : Nat) (b : Byte) : (s.writeMsg p b).hrdata = s.hrdata := by
  unfold State.writeMsg; split <;> rfl
@[simp] theorem State.writeMsg_inputs (p : Nat) (b : Byte) : (s.writeMsg p b).inputs = s.inputs := by
  unfold State.writeMsg; split <;> rfl
@[simp] theorem State.writeMsg_draws (p : Nat) (b : Byte) : (s.writeMsg p b).draws = s.draws := by
  unfold State.writeMsg; split <;> rfl

/-! ### `readByte` -/

@[simp] theorem State.readByte_cfg (m : Memory) (a : Nat) : (s.readByte m a).2.cfg = s.cfg := by
  unfold State.readByte; split <;> rfl
@[simp] theorem State.readByte_vars (m : Memory) (a : Nat) : (s.readByte m a).2.vars = s.vars := by
  unfold State.readByte; split <;> rfl
@[simp] theorem State.readByte_hash (m : Memory) (a : Nat) : (s.readByte m a).2.hash = s.hash := by
  unfold State.readByte; split <;> rfl
@[simp] theorem State.readByte_sched (m : Memory) (a : Nat) : (s.readByte m a).2.sched = s.sched := by
  unfold State.readByte; split <;> rfl
@[simp] theorem State.readByte_ph (m : Memory) (a : Nat) : (s.readByte m a).2.ph = s.ph := by
  unfold State.readByte; split <;> rfl
@[simp] theorem State.readByte_pp (m : Memory) (a : Nat) : (s.readByte m a).2.pp = s.pp := by
  unfold State.readByte; split <;> rfl
@[simp] theorem State.readByte_blk (m : Memory) (a : Nat) : (s.readByte m a).2.blk = s.blk := by
  unfold State.readByte; split <;> rfl
@[simp] theorem State.readByte_t (m : Memory) (a : Nat) : (s.readByte m a).2.t = s.t := by
  unfold State.readByte; split <;> rfl
@[simp] theorem State.readByte_len (m : Memory) (a : Nat) : (s.readByte m a).2.len = s.len := by
  unfold State.readByte; split <;> rfl
@[simp] theorem State.readByte_valid (m : Memory) (a : Nat) : (s.readByte m a).2.valid = s.valid := by
  unfold State.readByte; split <;> rfl
@[simp] theorem State.readByte_err (m : Memory) (a : Nat) : (s.readByte m a).2.err = s.err := by
  unfold State.readByte; split <;> rfl
@[simp] theorem State.readByte_ecause (m : Memory) (a : Nat) : (s.readByte m a).2.ecause = s.ecause := by
  unfold State.readByte; split <;> rfl
@[simp] theorem State.readByte_msg (m : Memory) (a : Nat) : (s.readByte m a).2.msg = s.msg := by
  unfold State.readByte; split <;> rfl
@[simp] theorem State.readByte_pad (m : Memory) (a : Nat) : (s.readByte m a).2.pad = s.pad := by
  unfold State.readByte; split <;> rfl
@[simp] theorem State.readByte_hrdata (m : Memory) (a : Nat) : (s.readByte m a).2.hrdata = s.hrdata := by
  unfold State.readByte; split <;> rfl
@[simp] theorem State.readByte_inputs (m : Memory) (a : Nat) : (s.readByte m a).2.inputs = s.inputs := by
  unfold State.readByte; split <;> rfl

/-! ### `readMsg` and `readPadWord` -/

@[simp] theorem State.readMsg_cfg (a : Nat) : (s.readMsg a).2.cfg = s.cfg := by
  simp [State.readMsg]
@[simp] theorem State.readPadWord_cfg (a : Nat) : (s.readPadWord a).2.cfg = s.cfg := by
  simp [State.readPadWord]
@[simp] theorem State.readMsg_vars (a : Nat) : (s.readMsg a).2.vars = s.vars := by
  simp [State.readMsg]
@[simp] theorem State.readPadWord_vars (a : Nat) : (s.readPadWord a).2.vars = s.vars := by
  simp [State.readPadWord]
@[simp] theorem State.readMsg_hash (a : Nat) : (s.readMsg a).2.hash = s.hash := by
  simp [State.readMsg]
@[simp] theorem State.readPadWord_hash (a : Nat) : (s.readPadWord a).2.hash = s.hash := by
  simp [State.readPadWord]
@[simp] theorem State.readMsg_sched (a : Nat) : (s.readMsg a).2.sched = s.sched := by
  simp [State.readMsg]
@[simp] theorem State.readPadWord_sched (a : Nat) : (s.readPadWord a).2.sched = s.sched := by
  simp [State.readPadWord]
@[simp] theorem State.readMsg_ph (a : Nat) : (s.readMsg a).2.ph = s.ph := by
  simp [State.readMsg]
@[simp] theorem State.readPadWord_ph (a : Nat) : (s.readPadWord a).2.ph = s.ph := by
  simp [State.readPadWord]
@[simp] theorem State.readMsg_pp (a : Nat) : (s.readMsg a).2.pp = s.pp := by
  simp [State.readMsg]
@[simp] theorem State.readPadWord_pp (a : Nat) : (s.readPadWord a).2.pp = s.pp := by
  simp [State.readPadWord]
@[simp] theorem State.readMsg_blk (a : Nat) : (s.readMsg a).2.blk = s.blk := by
  simp [State.readMsg]
@[simp] theorem State.readPadWord_blk (a : Nat) : (s.readPadWord a).2.blk = s.blk := by
  simp [State.readPadWord]
@[simp] theorem State.readMsg_t (a : Nat) : (s.readMsg a).2.t = s.t := by
  simp [State.readMsg]
@[simp] theorem State.readPadWord_t (a : Nat) : (s.readPadWord a).2.t = s.t := by
  simp [State.readPadWord]
@[simp] theorem State.readMsg_len (a : Nat) : (s.readMsg a).2.len = s.len := by
  simp [State.readMsg]
@[simp] theorem State.readPadWord_len (a : Nat) : (s.readPadWord a).2.len = s.len := by
  simp [State.readPadWord]
@[simp] theorem State.readMsg_valid (a : Nat) : (s.readMsg a).2.valid = s.valid := by
  simp [State.readMsg]
@[simp] theorem State.readPadWord_valid (a : Nat) : (s.readPadWord a).2.valid = s.valid := by
  simp [State.readPadWord]
@[simp] theorem State.readMsg_err (a : Nat) : (s.readMsg a).2.err = s.err := by
  simp [State.readMsg]
@[simp] theorem State.readPadWord_err (a : Nat) : (s.readPadWord a).2.err = s.err := by
  simp [State.readPadWord]
@[simp] theorem State.readMsg_ecause (a : Nat) : (s.readMsg a).2.ecause = s.ecause := by
  simp [State.readMsg]
@[simp] theorem State.readPadWord_ecause (a : Nat) : (s.readPadWord a).2.ecause = s.ecause := by
  simp [State.readPadWord]
@[simp] theorem State.readMsg_msg (a : Nat) : (s.readMsg a).2.msg = s.msg := by
  simp [State.readMsg]
@[simp] theorem State.readPadWord_msg (a : Nat) : (s.readPadWord a).2.msg = s.msg := by
  simp [State.readPadWord]
@[simp] theorem State.readMsg_pad (a : Nat) : (s.readMsg a).2.pad = s.pad := by
  simp [State.readMsg]
@[simp] theorem State.readPadWord_pad (a : Nat) : (s.readPadWord a).2.pad = s.pad := by
  simp [State.readPadWord]
@[simp] theorem State.readMsg_hrdata (a : Nat) : (s.readMsg a).2.hrdata = s.hrdata := by
  simp [State.readMsg]
@[simp] theorem State.readPadWord_hrdata (a : Nat) : (s.readPadWord a).2.hrdata = s.hrdata := by
  simp [State.readPadWord]
@[simp] theorem State.readMsg_inputs (a : Nat) : (s.readMsg a).2.inputs = s.inputs := by
  simp [State.readMsg]
@[simp] theorem State.readPadWord_inputs (a : Nat) : (s.readPadWord a).2.inputs = s.inputs := by
  simp [State.readPadWord]

/-! ### Functions of the state under the updates that leave their fields alone -/

@[simp] theorem State.answer_busy (v : Dword) : (s.answer v).busy = s.busy := rfl
@[simp] theorem State.answerFree_busy : s.answerFree.busy = s.busy := rfl
@[simp] theorem State.advance_busy : s.advance.busy = s.busy := rfl
@[simp] theorem State.advance_padCap : s.advance.padCap = s.padCap := rfl
@[simp] theorem State.readMsg_padCap (a : Nat) : (s.readMsg a).2.padCap = s.padCap := by
  simp [State.padCap]
@[simp] theorem State.readPadWord_padCap (a : Nat) : (s.readPadWord a).2.padCap = s.padCap := by
  simp [State.padCap]

theorem State.busy_iff : s.busy = true ↔ s.ph ≠ .idle := by simp [State.busy]
theorem State.not_busy_iff : s.busy = false ↔ s.ph = .idle := by simp [State.busy]

end Sys2Proof.Machine
end

