-- ==== Sys2Proof/Laws/Ops.lean ====
section
/-! SUPPORT. What each shared operation can do, said once. -/

namespace Sys2Proof.Machine

variable (s : State)

/-! ### Free values and reads of memory -/

theorem State.readByte_held {m : Memory} {a : Nat} {b : Byte} (h : m.read a = some b) :
    s.readByte m a = (b, s) := by
  simp [State.readByte, h]

theorem State.readByte_notHeld {m : Memory} {a : Nat} (h : m.read a = none) :
    s.readByte m a = s.drawByte := by
  simp [State.readByte, h]

theorem State.readMsg_held {p : Nat} {b : Byte} (h : s.msg.read p = some b) : s.readMsg p = (b, s) :=
  s.readByte_held h

/-- A read of four held bytes draws nothing. -/
theorem State.readPadWord_held {p : Nat} {b0 b1 b2 b3 : Byte} (h0 : s.pad.read p = some b0)
    (h1 : s.pad.read (p + 1) = some b1) (h2 : s.pad.read (p + 2) = some b2)
    (h3 : s.pad.read (p + 3) = some b3) : s.readPadWord p = (be32 b0 b1 b2 b3, s) := by
  simp [State.readPadWord, State.readByte_held _ h0, State.readByte_held _ h1,
    State.readByte_held _ h2, State.readByte_held _ h3]

/-- A read of a byte changes nothing but the count of draws. -/
theorem State.readMsg_frame (p : Nat) :
    (s.readMsg p).2 = { s with draws := (s.readMsg p).2.draws } := by
  unfold State.readMsg State.readByte
  split <;> rfl

theorem State.readPadWord_frame (p : Nat) :
    (s.readPadWord p).2 = { s with draws := (s.readPadWord p).2.draws } := by
  have frame : ∀ (u : State) (m : Memory) (a : Nat),
      (u.readByte m a).2 = { u with draws := (u.readByte m a).2.draws } := by
    intro u m a
    unfold State.readByte
    split <;> rfl
  simp only [State.readPadWord]
  rw [frame, frame (State.readByte _ _ _).2, frame (State.readByte _ _ _).2, frame s]

/-! ### Writes to memory -/

/-- A write to `PAD` that answers writes the bytes, at addresses the memory has. -/
theorem State.writePad_eq_some {p : Nat} {bs : List Byte} {t : State} (h : s.writePad p bs = some t) :
    p + bs.length ≤ s.padCap ∧ t = { s with pad := s.pad.writeBytes p bs } := by
  unfold State.writePad at h
  split at h
  · exact ⟨‹_›, (Option.some.inj h).symm⟩
  · cases h

theorem State.writePad_inRange {p : Nat} {bs : List Byte} (h : p + bs.length ≤ s.padCap) :
    s.writePad p bs = some { s with pad := s.pad.writeBytes p bs } := if_pos h

theorem State.writeMsg_inRange {p : Nat} {b : Byte} (h : p < s.cfg.msgCap.val) :
    s.writeMsg p b = { s with msg := s.msg.write p b } := if_pos h

theorem State.writeMsg_outOfRange {p : Nat} {b : Byte} (h : s.cfg.msgCap.val ≤ p) :
    s.writeMsg p b = s := if_neg (by omega)

/-- An append to `PAD` that answers a next state. -/
theorem State.appendPad_next {bs : List Byte} {after : State → State} {t : State}
    (h : s.appendPad bs after = .next t) :
    s.pp.toNat + bs.length ≤ s.padCap ∧
      t = after { s with pad := s.pad.writeBytes s.pp.toNat bs, pp := s.pp + BitVec.ofNat 64 bs.length } := by
  unfold State.appendPad at h
  split at h
  · rename_i u hu
    obtain ⟨hr, rfl⟩ := s.writePad_eq_some hu
    exact ⟨hr, (Host.Outcome.next.inj h).symm⟩
  · cases h

theorem State.appendPad_inRange {bs : List Byte} {after : State → State}
    (h : s.pp.toNat + bs.length ≤ s.padCap) :
    s.appendPad bs after = .next (after
      { s with pad := s.pad.writeBytes s.pp.toNat bs, pp := s.pp + BitVec.ofNat 64 bs.length }) := by
  simp [State.appendPad, s.writePad_inRange h]

/-! ### The host operations' shared parts -/

theorem State.gated_busy (f : State → State) (h : s.busy = true) : s.gated f = s.answer 0 := by
  simp [State.gated, h]

theorem State.gated_idle (f : State → State) (h : s.busy = false) : s.gated f = (f s).answer 0 := by
  simp [State.gated, h]

/-- A read whose value is given or left open changes nothing but `hrdata` and the count of draws. -/
theorem State.answerOrFree_frame (v : Option Dword) :
    s.answerOrFree v = { s with hrdata := (s.answerOrFree v).hrdata, draws := (s.answerOrFree v).draws } := by
  cases v <;> rfl

theorem State.start_tooLarge (h : s.inputTooLarge = true) : s.start = s.raiseInputTooLarge := by
  have h' : ({ s with valid := false } : State).inputTooLarge = true := h
  simp only [State.start, h', if_true]
  rfl

theorem State.start_accepted (h : s.inputTooLarge = false) : s.start = s.acceptStart := by
  have h' : ({ s with valid := false } : State).inputTooLarge = false := h
  simp only [State.start, h', Bool.false_eq_true, if_false]
  rfl

/-! ### Schedule registers, working variables and ROM -/

theorem State.putSched_next {x : Word} {next : Phase} {t : State} (h : s.putSched x next = .next t) :
    ∃ hs : s.t.toNat < 64, t = { s with sched := s.sched.set s.t.toNat x hs, t := s.t + 1, ph := next } := by
  unfold State.putSched at h
  split at h
  · exact ⟨‹_›, (Host.Outcome.next.inj h).symm⟩
  · cases h

theorem State.putSched_inRange {x : Word} {next : Phase} (h : s.t.toNat < 64) :
    s.putSched x next = .next { s with sched := s.sched.set s.t.toNat x h, t := s.t + 1, ph := next } :=
  dif_pos h

theorem State.schedAt_eq {i : Nat} (h : i < 64) : s.schedAt i = some s.sched[i] := by
  simp [State.schedAt, h]

/-- In the range of `U_SCHEXP` the recurrence reads four words that exist. -/
theorem State.derivedWord_inRange {t : Nat} (h1 : 16 ≤ t) (h2 : t < 64) :
    s.derivedWord t = some (expandWord s.sched[t - 16] s.sched[t - 15] s.sched[t - 7] s.sched[t - 2]) := by
  simp only [State.derivedWord, if_pos h1, s.schedAt_eq (i := t - 16) (by omega),
    s.schedAt_eq (i := t - 15) (by omega), s.schedAt_eq (i := t - 7) (by omega),
    s.schedAt_eq (i := t - 2) (by omega)]

theorem Rom.kAt_eq {i : Nat} (h : i < 64) : Rom.kAt i = some Rom.k[i] := by
  simp [Rom.kAt, h]

theorem Rom.ivAt_eq {i : Nat} (h : i < 8) : Rom.ivAt i = some Rom.iv[i] := by
  simp [Rom.ivAt, h]

@[simp] theorem Vars.toVector_ofVector (x : Vector Word 8) : (Vars.ofVector x).toVector = x := by
  ext i hi
  match i, hi with
  | 0, _ | 1, _ | 2, _ | 3, _ | 4, _ | 5, _ | 6, _ | 7, _ => rfl

@[simp] theorem Vars.ofVector_toVector (v : Vars) : Vars.ofVector v.toVector = v := rfl

theorem foldHash_get (hash : Vector Word 8) (v : Vars) {k : Nat} (h : k < 8) :
    (foldHash hash v)[k] = add32 hash[k] v.toVector[k] := by
  simp [foldHash]

end Sys2Proof.Machine
end

