-- ==== Sys2Proof/Laws/Step.lean ====
section
/-! SUPPORT. What a step can do, and what each instruction did when it answered a next state. -/

namespace Sys2Proof.Machine

/-- The micro-operation of a phase (10 R24). -/
theorem sequencerAction_eq (ph : Phase) :
    sequencerAction ph =
      match ph with
      | .idle => .wait
      | .hInit => .run .uHinit
      | .padCopy => .run .uPadcopy
      | .padMark => .run .uPadmark
      | .padZero => .run .uPadzero
      | .padLen => .run .uPadlen
      | .schLoad => .run .uSchload
      | .schExp => .run .uSchexp
      | .cmpInit => .run .uCmpinit
      | .cmpRound => .run .uCmpround
      | .cmpFold => .run .uCmpfold := by
  cases ph <;> rfl

/-- Everything a step that answers a next state can be: a host operation, a micro-operation of the
phase, a wait, or a reset event. -/
theorem step_next_cases {s t : State} (h : step s = .next t) :
    (∃ w rest i, s.inputs = .host w :: rest ∧ decode (.host w) = .ok i ∧ exec i s.advance = .next t) ∨
    (s.sequencerNext = true ∧ ∃ i, decode (.uop s.ph.code) = .ok i ∧ exec i s.advance = .next t) ∨
    (s.sequencerNext = true ∧ s.ph = .idle ∧ t = s.advance) ∨
    (∃ rest, s.inputs = .reset :: rest ∧ t = s.advance.resetEvent) := by
  have seq : ∀ {x : Action}, x = sequencerAction s.ph →
      (match x with
        | .run i => exec i s.advance
        | .wait => .next s.advance
        | .reset => .next s.advance.resetEvent
        | .refuse hop => .refused (.reservedHop hop)) = .next t →
      (∃ i, decode (.uop s.ph.code) = .ok i ∧ exec i s.advance = .next t) ∨
        (s.ph = .idle ∧ t = s.advance) := by
    intro x hx hstep
    subst hx
    rw [sequencerAction_eq] at hstep
    cases hp : s.ph <;> rw [hp] at hstep
    case idle => exact .inr ⟨rfl, (Host.Outcome.next.inj hstep).symm⟩
    all_goals exact .inl ⟨_, rfl, hstep⟩
  unfold step State.nextAction at h
  cases hi : s.inputs with
  | nil =>
    rw [hi] at h
    rcases seq rfl h with h | h
    · exact .inr (.inl ⟨by simp [State.sequencerNext, hi], h⟩)
    · exact .inr (.inr (.inl ⟨by simp [State.sequencerNext, hi], h⟩))
  | cons x rest =>
    rw [hi] at h
    cases x with
    | sequencer =>
      rcases seq rfl h with h | h
      · exact .inr (.inl ⟨by simp [State.sequencerNext, hi], h⟩)
      · exact .inr (.inr (.inl ⟨by simp [State.sequencerNext, hi], h⟩))
    | reset => exact .inr (.inr (.inr ⟨rest, rfl, (Host.Outcome.next.inj h).symm⟩))
    | host w =>
      simp only at h
      split at h <;> rename_i heq
      · split at heq <;> simp only [Action.run.injEq, reduceCtorEq] at heq
        subst heq
        exact .inl ⟨w, rest, _, rfl, ‹_›, h⟩
      · split at heq <;> simp at heq
      · split at heq <;> simp at heq
      · cases h

theorem decodeHost_isHost {w : HostWord} {i : Instr} (h : decode (.host w) = .ok i) :
    Instr.isHost i = true := by
  simp only [decode, decodeHost] at h
  split at h <;> first | (cases h; rfl) | cases h

/-- A run of `k + 1` steps takes one and goes on (`core` is the machine of the host's interface). -/
theorem run_step_succ {s t : State} (h : step s = .next t) (k : Nat) :
    Sys2Proof.core.run (k + 1) s = Sys2Proof.core.run k t := by
  have run_succ : ∀ (M : Host.Core) {x y : M.State}, M.step x = .next y → M.run (k + 1) x = M.run k y := by
    intro M x y hxy
    conv_lhs => unfold Host.Core.run
    rw [hxy]
  exact run_succ Sys2Proof.core h

/-! ### Micro-operations where every address and index they name exists -/

theorem State.msgCap_lt_padCap (s : State) : s.cfg.msgCap.val + 9 ≤ s.padCap := by
  unfold State.padCap
  omega

theorem execUPadcopy_inRange {s : State} (h : s.pp.toNat < s.cfg.msgCap.val) :
    execUPadcopy s = .next { s with
      pad := s.pad.write s.pp.toNat (s.readMsg s.pp.toNat).1
      pp := s.pp + 1
      ph := if s.pp.toNat + 1 = s.len.toNat then .padMark else .padCopy
      draws := (s.readMsg s.pp.toNat).2.draws } := by
  have hcap : s.pp.toNat + 1 ≤ s.padCap := by have := s.msgCap_lt_padCap; omega
  have hf := s.readMsg_frame s.pp.toNat
  simp only [execUPadcopy, if_pos h]
  generalize s.readMsg s.pp.toNat = r at *
  obtain ⟨x, u⟩ := r
  obtain ⟨d, rfl⟩ : ∃ d, u = { s with draws := d } := ⟨_, hf⟩
  exact (State.appendPad_inRange _ hcap).trans rfl

theorem execUPadmark_inRange {s : State} (h : s.pp.toNat < s.padCap) :
    execUPadmark s = .next { s with
      pad := s.pad.write s.pp.toNat 0x80, pp := s.pp + 1, ph := fillPhase (s.pp.toNat + 1) } :=
  (s.appendPad_inRange (bs := [0x80]) h).trans rfl

theorem execUPadzero_inRange {s : State} (h : s.pp.toNat < s.padCap) :
    execUPadzero s = .next { s with
      pad := s.pad.write s.pp.toNat 0x00, pp := s.pp + 1, ph := fillPhase (s.pp.toNat + 1) } :=
  (s.appendPad_inRange (bs := [0x00]) h).trans rfl

theorem execUPadlen_inRange {s : State} (h1 : 8 * s.len.toNat < 2 ^ 64) (h2 : s.pp.toNat + 8 ≤ s.padCap) :
    execUPadlen s = .next { s with
      pad := s.pad.writeBytes s.pp.toNat (be64Bytes (BitVec.ofNat 64 (8 * s.len.toNat)))
      pp := s.pp + 8
      blk := 0
      t := 0
      ph := .schLoad } := by
  simp only [execUPadlen, if_pos h1]
  exact (State.appendPad_inRange _ h2).trans rfl

theorem execUSchload_inRange {s : State} (h : s.loadAddress + 4 ≤ s.padCap) (ht : s.t.toNat < 64) :
    execUSchload s = .next { s with
      sched := s.sched.set s.t.toNat (s.readPadWord s.loadAddress).1 ht
      t := s.t + 1
      ph := if s.t.toNat + 1 = 16 then .schExp else .schLoad
      draws := (s.readPadWord s.loadAddress).2.draws } := by
  have hf := s.readPadWord_frame s.loadAddress
  simp only [execUSchload, if_pos h]
  generalize s.readPadWord s.loadAddress = r at *
  obtain ⟨x, u⟩ := r
  obtain ⟨d, rfl⟩ : ∃ d, u = { s with draws := d } := ⟨_, hf⟩
  exact (State.putSched_inRange { s with draws := d } ht).trans rfl

theorem execUSchexp_inRange {s : State} (h1 : 16 ≤ s.t.toNat) (h2 : s.t.toNat < 64) :
    execUSchexp s = .next { s with
      sched := s.sched.set s.t.toNat (expandWord s.sched[s.t.toNat - 16] s.sched[s.t.toNat - 15]
        s.sched[s.t.toNat - 7] s.sched[s.t.toNat - 2]) h2
      t := s.t + 1
      ph := if s.t.toNat + 1 = 64 then .cmpInit else .schExp } := by
  simp only [execUSchexp, s.derivedWord_inRange h1 h2]
  exact s.putSched_inRange h2

theorem execUCmpround_inRange {s : State} (h : s.t.toNat < 64) :
    execUCmpround s = .next { s with
      vars := round s.vars Rom.k[s.t.toNat] s.sched[s.t.toNat]
      t := s.t + 1
      ph := if s.t.toNat + 1 = 64 then .cmpFold else .cmpRound } := by
  simp only [execUCmpround, Rom.kAt_eq h, s.schedAt_eq h]

/-! ### Micro-operations that answered a next state -/

theorem execUPadcopy_next {s t : State} (h : execUPadcopy s = .next t) :
    s.pp.toNat < s.cfg.msgCap.val ∧
      t = { s with
        pad := s.pad.write s.pp.toNat (s.readMsg s.pp.toNat).1
        pp := s.pp + 1
        ph := if s.pp.toNat + 1 = s.len.toNat then .padMark else .padCopy
        draws := (s.readMsg s.pp.toNat).2.draws } := by
  by_cases hr : s.pp.toNat < s.cfg.msgCap.val
  · exact ⟨hr, Host.Outcome.next.inj (h.symm.trans (execUPadcopy_inRange hr))⟩
  · simp [execUPadcopy, hr] at h

theorem execUPadmark_next {s t : State} (h : execUPadmark s = .next t) :
    s.pp.toNat < s.padCap ∧
      t = { s with pad := s.pad.write s.pp.toNat 0x80, pp := s.pp + 1, ph := fillPhase (s.pp.toNat + 1) } :=
  State.appendPad_next _ h

theorem execUPadzero_next {s t : State} (h : execUPadzero s = .next t) :
    s.pp.toNat < s.padCap ∧
      t = { s with pad := s.pad.write s.pp.toNat 0x00, pp := s.pp + 1, ph := fillPhase (s.pp.toNat + 1) } :=
  State.appendPad_next _ h

theorem execUPadlen_next {s t : State} (h : execUPadlen s = .next t) :
    8 * s.len.toNat < 2 ^ 64 ∧ s.pp.toNat + 8 ≤ s.padCap ∧
      t = { s with
        pad := s.pad.writeBytes s.pp.toNat (be64Bytes (BitVec.ofNat 64 (8 * s.len.toNat)))
        pp := s.pp + 8
        blk := 0
        t := 0
        ph := .schLoad } := by
  unfold execUPadlen at h
  split at h
  · exact ⟨‹_›, State.appendPad_next _ h⟩
  · cases h

theorem execUSchload_next {s t : State} (h : execUSchload s = .next t) :
    s.loadAddress + 4 ≤ s.padCap ∧ ∃ ht : s.t.toNat < 64,
      t = { s with
        sched := s.sched.set s.t.toNat (s.readPadWord s.loadAddress).1 ht
        t := s.t + 1
        ph := if s.t.toNat + 1 = 16 then .schExp else .schLoad
        draws := (s.readPadWord s.loadAddress).2.draws } := by
  by_cases hr : s.loadAddress + 4 ≤ s.padCap
  · by_cases ht : s.t.toNat < 64
    · exact ⟨hr, ht, Host.Outcome.next.inj (h.symm.trans (execUSchload_inRange hr ht))⟩
    · simp [execUSchload, hr, State.putSched, ht] at h
  · simp [execUSchload, hr] at h

theorem execUSchexp_next {s t : State} (h : execUSchexp s = .next t) :
    16 ≤ s.t.toNat ∧ ∃ h2 : s.t.toNat < 64,
      t = { s with
        sched := s.sched.set s.t.toNat (expandWord s.sched[s.t.toNat - 16] s.sched[s.t.toNat - 15]
          s.sched[s.t.toNat - 7] s.sched[s.t.toNat - 2]) h2
        t := s.t + 1
        ph := if s.t.toNat + 1 = 64 then .cmpInit else .schExp } := by
  by_cases h1 : 16 ≤ s.t.toNat
  · by_cases h2 : s.t.toNat < 64
    · exact ⟨h1, h2, Host.Outcome.next.inj (h.symm.trans (execUSchexp_inRange h1 h2))⟩
    · unfold execUSchexp at h
      split at h
      · simp [State.putSched, h2] at h
      · cases h
  · simp [execUSchexp, State.derivedWord, h1] at h

theorem execUCmpround_next {s t : State} (h : execUCmpround s = .next t) :
    ∃ ht : s.t.toNat < 64,
      t = { s with
        vars := round s.vars Rom.k[s.t.toNat] s.sched[s.t.toNat]
        t := s.t + 1
        ph := if s.t.toNat + 1 = 64 then .cmpFold else .cmpRound } := by
  by_cases ht : s.t.toNat < 64
  · exact ⟨ht, Host.Outcome.next.inj (h.symm.trans (execUCmpround_inRange ht))⟩
  · have hn : Rom.kAt s.t.toNat = none := by simp [Rom.kAt]; omega
    simp [execUCmpround, hn] at h

end Sys2Proof.Machine
end

