-- ==== Sys2Proof/Laws/HostProgram.lean ====
section
/-! SUPPORT. What each part of a host program gives, said once. -/

namespace Sys2Proof.Machine

/-! ### Going on, issuing and asking -/

@[simp] theorem thenDo_next {α β : Type} (a : α) (f : α → Host.Outcome β Fault Refusal) :
    thenDo (.next a) f = f a := rfl

theorem thenDo_assoc {α β γ : Type} (r : Host.Outcome α Fault Refusal) (f : α → Host.Outcome β Fault Refusal)
    (g : β → Host.Outcome γ Fault Refusal) : thenDo (thenDo r f) g = thenDo r fun a => thenDo (f a) g := by
  cases r <;> rfl

/-- Issuing an operation executes it, and leaves the coming moves as they were. -/
theorem State.issue_eq {s : State} {w : HostWord} {i : Instr} (h : decode (.host w) = .ok i) :
    s.issue w = exec i s := by
  unfold State.issue step State.nextAction
  simp only [h]
  rfl

@[simp] theorem State.ask_nil (s : State) : s.ask [] = .next ([], s) := rfl

theorem State.ask_cons {s u : State} {w : HostWord} (h : s.issue w = .next u) (ws : List HostWord) :
    s.ask (w :: ws) = thenDo (u.ask ws) fun r => .next (u.hrdata :: r.1, r.2) := by
  rw [State.ask, h]
  rfl

theorem State.ask_append (s : State) (ws vs : List HostWord) :
    s.ask (ws ++ vs) =
      thenDo (s.ask ws) fun r => thenDo (r.2.ask vs) fun q => .next (r.1 ++ q.1, q.2) := by
  induction ws generalizing s with
  | nil =>
    rw [List.nil_append, State.ask_nil, thenDo_next]
    cases s.ask vs <;> rfl
  | cons w rest ih =>
    rw [List.cons_append, State.ask, State.ask]
    cases s.issue w with
    | fault e => rfl
    | refused e => rfl
    | next u =>
      rw [thenDo_next, thenDo_next, ih, thenDo_assoc, thenDo_assoc]
      congr 1
      funext r
      rw [thenDo_assoc]
      rfl

/-! ### Steps granted to the sequencer -/

@[simp] theorem State.grant_zero (s : State) : s.grant 0 = .next s := rfl

theorem State.grant_idle {s : State} (h : s.busy = false) (n : Nat) : s.grant n = .next s := by
  cases n with
  | zero => rfl
  | succ k => rw [State.grant, if_neg (by rw [h]; decide)]

theorem State.grant_busy {s u : State} (h : s.busy = true)
    (hstep : step { s with inputs := .sequencer :: s.inputs } = .next u) (n : Nat) :
    s.grant (n + 1) = u.grant n := by
  rw [State.grant, if_pos h, hstep]
  rfl

/-! ### `LOADMSG` -/

/-- One byte written while idle, at any address of 64 bits. -/
theorem State.issue_hwrMsg_idle {s : State} (hs : s.ph = .idle) {p : Nat} (hp : p < 2 ^ 64) (b : Byte) :
    s.issue ⟨1, BitVec.ofNat 64 p, b.setWidth 64⟩ = .next ((s.writeMsg p b).answer 0) := by
  have hb : dataByte (b.setWidth 64) = b := by
    apply BitVec.eq_of_getLsbD_eq
    intro i hi
    simp only [dataByte, BitVec.getLsbD_extractLsb', BitVec.getLsbD_setWidth, hi, decide_true,
      Bool.true_and, Nat.zero_add]
    simp [show i < 64 by omega]
  have hexec : exec (.hwrMsg (BitVec.ofNat 64 p) (b.setWidth 64)) s = .next ((s.writeMsg p b).answer 0) := by
    show Host.Outcome.next (s.gated _) = _
    rw [State.gated_idle _ _ ((State.not_busy_iff s).2 hs), hb, BitVec.toNat_ofNat, Nat.mod_eq_of_lt hp]
  exact (State.issue_eq rfl).trans hexec

/-- What the writes of bytes from `p` on do while idle: the bytes are held where `MSG` has their
addresses, every other byte is as before, and nothing else changes but the answer. -/
theorem State.ask_writeBytesOps {s : State} (hs : s.ph = .idle) (bs : List Byte) {p : Nat}
    (hp : p + bs.length ≤ 2 ^ 64) :
    ∃ vs u, s.ask (writeBytesOps p bs) = .next (vs, u) ∧ u = { s with msg := u.msg, hrdata := u.hrdata } ∧
      (∀ k, k < bs.length → p + k < s.cfg.msgCap.val → u.msg.read (p + k) = bs[k]?) ∧
      (∀ q, q < p ∨ p + bs.length ≤ q → u.msg.read q = s.msg.read q) := by
  induction bs generalizing s p with
  | nil => exact ⟨[], s, rfl, rfl, fun k hk => absurd hk (Nat.not_lt_zero k), fun _ _ => rfl⟩
  | cons b rest ih =>
    rw [List.length_cons] at hp
    have hw := State.issue_hwrMsg_idle hs (p := p) (by omega) b
    generalize hv : (s.writeMsg p b).answer 0 = v at hw
    have hv1 : v = { s with msg := v.msg, hrdata := v.hrdata } := by
      subst hv
      unfold State.writeMsg State.answer
      split <;> rfl
    have hsame : p < s.cfg.msgCap.val → v.msg.read p = some b := by
      intro hlt
      subst hv
      rw [State.writeMsg_inRange _ hlt]
      exact Memory.read_write_same _ _ _
    have hother : ∀ q, q ≠ p → v.msg.read q = s.msg.read q := by
      intro q hq
      subst hv
      by_cases hlt : p < s.cfg.msgCap.val
      · rw [State.writeMsg_inRange _ hlt]
        exact Memory.read_write_other _ _ hq
      · rw [State.writeMsg_outOfRange _ (by omega)]
        rfl
    have hcfg : v.cfg = s.cfg := by rw [hv1]
    obtain ⟨vs, u, hask, hu, hin, hout⟩ := ih (s := v) (p := p + 1) (by rw [hv1]; exact hs) (by omega)
    refine ⟨v.hrdata :: vs, u, ?_, ?_, fun k hk hkp => ?_, fun q hq => ?_⟩
    · rw [writeBytesOps, State.ask_cons hw, hask]
      rfl
    · rw [hu, hv1]
    · cases k with
      | zero =>
        rw [Nat.add_zero, hout p (.inl (by omega)), hsame hkp]
        rfl
      | succ k =>
        rw [show p + (k + 1) = p + 1 + k by omega,
          hin k (by simpa using hk) (by rw [hcfg]; omega)]
        rfl
    · rw [List.length_cons] at hq
      rw [hout q (by omega), hother q (by omega)]

/-- `LOADMSG` while idle: `LEN` is the message's length and `MSG` holds its bytes where it has their
addresses; nothing else changes but the answer. -/
theorem State.ask_loadMsgOps {s : State} (hs : s.ph = .idle) {m : List Byte} (hm : m.length < 2 ^ 64) :
    ∃ ops vs u, loadMsgOps m = some ops ∧ s.ask ops = .next (vs, u) ∧
      u = { s with msg := u.msg, len := u.len, hrdata := u.hrdata } ∧ u.len.toNat = m.length ∧
      ∀ k, k < m.length → k < s.cfg.msgCap.val → u.msg.read k = m[k]? := by
  obtain ⟨vs, u, hask, hu, hin, -⟩ := State.ask_writeBytesOps hs m (p := 0) (by omega)
  have hidle : u.ph = .idle := by rw [hu]; exact hs
  have hlen : u.issue ⟨2, 0, BitVec.ofNat 64 m.length⟩ =
      .next (State.answer { u with len := BitVec.ofNat 64 m.length } 0) :=
    (State.issue_eq rfl).trans (congrArg _ (State.gated_idle _ _ ((State.not_busy_iff u).2 hidle)))
  refine ⟨_, vs ++ [0], State.answer { u with len := BitVec.ofNat 64 m.length } 0, if_pos hm, ?_, ?_, ?_, fun k hk hkp => ?_⟩
  · rw [State.ask_append, hask, thenDo_next, State.ask_cons hlen]
    rfl
  · rw [hu]
    rfl
  · exact Nat.mod_eq_of_lt hm
  · have := hin k hk (by omega)
    rwa [Nat.zero_add] at this

/-! ### `READDIGEST` -/

/-- The reads of `n` bytes of the window from `j` on, with `VALID = 1`: only the answer changes. -/
theorem State.ask_readBytesOps {s : State} (hs : s.valid = true) (n : Nat) {j : Nat} (hj : j + n ≤ 32) :
    ∃ vs v, s.ask (readBytesOps j n) = .next (vs, { s with hrdata := v }) ∧ vs.length = n ∧
      ∀ k, k < n → (vs.map dataByte)[k]? = s.dig (j + k) := by
  induction n generalizing s j with
  | zero => exact ⟨[], s.hrdata, rfl, rfl, fun k hk => absurd hk (Nat.not_lt_zero k)⟩
  | succ k ih =>
    obtain ⟨b, hb⟩ : ∃ b, s.dig j = some b := by
      have : j / 4 < 8 := by omega
      exact ⟨(s.hash[j / 4]).extractLsb' (24 - 8 * (j % 4)) 8, by
        simp only [State.dig, Vector.getElem?_eq_getElem this]⟩
    have hread : s.issue ⟨5, BitVec.ofNat 64 j, 0⟩ = .next (s.answer (zextByte b)) := by
      refine (State.issue_eq (i := .hrdDigest (BitVec.ofNat 64 j)) rfl).trans ?_
      show Host.Outcome.next (s.answerOrFree _) = _
      rw [if_pos hs, BitVec.toNat_ofNat, Nat.mod_eq_of_lt (by omega), hb]
      rfl
    obtain ⟨vs, v, hask, hlen, hvs⟩ := ih (s := s.answer (zextByte b)) hs (j := j + 1) (by omega)
    refine ⟨zextByte b :: vs, v, ?_, by rw [List.length_cons, hlen], fun i hi => ?_⟩
    · rw [readBytesOps, State.ask_cons hread, hask]
      rfl
    · cases i with
      | zero =>
        rw [List.map_cons, List.getElem?_cons_zero, Nat.add_zero, hb]
        congr 1
        apply BitVec.eq_of_getLsbD_eq
        intro i hi
        simp [dataByte, zextByte, hi, show i < 64 by omega]
      | succ i =>
        rw [List.map_cons, List.getElem?_cons_succ, hvs i (by omega), show j + (i + 1) = j + 1 + i by omega]
        rfl

/-- `READDIGEST` with `VALID = 1` returns the window, byte by byte. -/
theorem State.readDigest_valid {s : State} (hs : s.valid = true) :
    ∃ bs v, s.readDigest = .next (bs, { s with hrdata := v }) ∧ bs.length = 32 ∧
      ∀ j, j < 32 → bs[j]? = s.dig j := by
  obtain ⟨vs, v, hask, hlen, hvs⟩ := State.ask_readBytesOps hs 32 (j := 0) (by omega)
  refine ⟨vs.map dataByte, v, ?_, by rw [List.length_map, hlen], fun j hj => ?_⟩
  · rw [State.readDigest, readDigestOps, hask]
    rfl
  · rw [hvs j hj, Nat.zero_add]

/-! ### `WAIT` and the check -/

/-- The bit of `STATUS` that `WAIT` tests (10 R27). -/
theorem State.status_busy (s : State) : s.status.getLsbD 0 = s.busy := by
  simp only [State.status, BitVec.getLsbD_append, BitVec.getLsbD_ofBool]
  simp

/-- One round of `WAIT` that ends it: the sequencer's steps leave the core idle. -/
theorem State.wait_ends {s u : State} {n : Nat} (h : s.grant n = .next u) (hu : u.busy = false)
    (rest : List Nat) : s.wait (n :: rest) = .next (true, u.answer u.status) := by
  have hread : u.issue ⟨4, 0, 0⟩ = .next (u.answer u.status) := State.issue_eq (i := .hrdStatus) rfl
  rw [State.wait, h, thenDo_next, hread, thenDo_next, if_neg (by
    rw [State.answer_hrdata, u.status_busy, hu]
    decide)]

/-- One round of `WAIT` that does not end it: the sequencer's steps leave the core busy. -/
theorem State.wait_repeats {s u : State} {n : Nat} (h : s.grant n = .next u) (hu : u.busy = true)
    (rest : List Nat) : s.wait (n :: rest) = (u.answer u.status).wait rest := by
  have hread : u.issue ⟨4, 0, 0⟩ = .next (u.answer u.status) := State.issue_eq (i := .hrdStatus) rfl
  rw [State.wait, h, thenDo_next, hread, thenDo_next, if_pos (by
    rw [State.answer_hrdata, u.status_busy, hu])]

end Sys2Proof.Machine
end

