-- ==== Sys2Proof/Laws/PerInstr.lean ====
section
/-! SUPPORT. A fact of each instruction as syntax, one lemma a constructor. -/

namespace Sys2Proof.Laws.EncodeWellFormed

/-- The encoding of an instruction carries one, has its ignored buses at 0 (30 R94), and decodes to it. -/
def Statement (i : Instr) : Prop :=
  (encode i).wellFormed = true ∧ (encode i).canonical = encode i ∧ decode (encode i) = .ok i

theorem hnop : Statement .hnop := ⟨rfl, rfl, rfl⟩

theorem hwrMsg (haddr hwdata : Dword) : Statement (.hwrMsg haddr hwdata) := ⟨rfl, rfl, rfl⟩

theorem hwrLen (hwdata : Dword) : Statement (.hwrLen hwdata) := ⟨rfl, rfl, rfl⟩

theorem hstart : Statement .hstart := ⟨rfl, rfl, rfl⟩

theorem hrdStatus : Statement .hrdStatus := ⟨rfl, rfl, rfl⟩

theorem hrdDigest (haddr : Dword) : Statement (.hrdDigest haddr) := ⟨rfl, rfl, rfl⟩

theorem hrdIv (haddr : Dword) : Statement (.hrdIv haddr) := ⟨rfl, rfl, rfl⟩

theorem hrdK (haddr : Dword) : Statement (.hrdK haddr) := ⟨rfl, rfl, rfl⟩

theorem hrdLen : Statement .hrdLen := ⟨rfl, rfl, rfl⟩

theorem uHinit : Statement .uHinit := ⟨rfl, rfl, rfl⟩

theorem uPadcopy : Statement .uPadcopy := ⟨rfl, rfl, rfl⟩

theorem uPadmark : Statement .uPadmark := ⟨rfl, rfl, rfl⟩

theorem uPadzero : Statement .uPadzero := ⟨rfl, rfl, rfl⟩

theorem uPadlen : Statement .uPadlen := ⟨rfl, rfl, rfl⟩

theorem uSchload : Statement .uSchload := ⟨rfl, rfl, rfl⟩

theorem uSchexp : Statement .uSchexp := ⟨rfl, rfl, rfl⟩

theorem uCmpinit : Statement .uCmpinit := ⟨rfl, rfl, rfl⟩

theorem uCmpround : Statement .uCmpround := ⟨rfl, rfl, rfl⟩

theorem uCmpfold : Statement .uCmpfold := ⟨rfl, rfl, rfl⟩

end Sys2Proof.Laws.EncodeWellFormed
end

