-- ==== Sys2Proof/Laws/Rom.lean ====
section
/-! SUPPORT. The two tables of the ROM and the primes beside their words. -/

namespace Sys2Proof.Machine

set_option maxRecDepth 8000 in
/-- The second table lists every prime below 312, in order (40 R111, R117). -/
theorem Rom.kRows_primes : Rom.kRows.map Prod.fst = (List.range 312).filter isPrime := by decide +kernel

/-- The first table lists every prime below 20, in order (40 R111, R116). -/
theorem Rom.ivRows_primes : Rom.ivRows.map Prod.fst = (List.range 20).filter isPrime := by decide

end Sys2Proof.Machine
end

