-- ==== Sys2Proof/Tests/Slice0.lean ====
section
/-! SUPPORT. Small tests with results from spec 95, the smoke test of WellFormed, and a witness for every
statement that has hypotheses. -/

namespace Sys2Proof.Tests

open Sys2Proof.Machine

/-! ### Helpers -/

/-- One field of the state a step answered. -/
def after {α : Type} (r : Result) (f : State → α) : Option α :=
  match r with
  | .next s => some (f s)
  | .fault _ => none
  | .refused _ => none

/-- One value a host program came to. -/
def reply {α β : Type} (r : Reply α) (f : α × State → β) : Option β :=
  match r with
  | .next x => some (f x)
  | .fault _ => none
  | .refused _ => none

/-- Idle, the one-byte message "a" in `MSG`, `LEN = 1`. -/
def loaded : State := { State.reset with len := 1, msg := [(0, 0x61)] }

/-- The run on "a" has been started. -/
def started : State := { loaded with ph := .hInit }

/-- A core with `MSG_CAP = 3`; `PAD_CAP` is 64. -/
def small : State := { State.reset with cfg := ⟨⟨3, by decide⟩⟩ }

/-- Busy in some phase. -/
def inPhase (ph : Phase) : State := { State.reset with ph := ph }

/-- The digest of "abc" in `H`, `VALID = 1` (95 V14). -/
def finishedAbc : State :=
  { State.reset with
    valid := true
    hash := #v[0xba7816bf, 0x8f01cfea, 0x414140de, 0x5dae2223, 0xb00361a3, 0x96177a9c, 0xb410ff61, 0xf20015ad] }

/-- The fold of the only block of "abc" (95 V10). -/
def foldAbc : State :=
  { State.reset with
    ph := .cmpFold
    pp := 64
    hash := Rom.iv
    vars := ⟨0x506e3058, 0xd39a2165, 0x04d24d6c, 0xb85e2ce9, 0x5ef50f24, 0xfb121210, 0x948d25b6, 0x961f4894⟩ }

/-- A rejected start. -/
def rejected : State := { State.reset with err := true, ecause := 1 }

/-- The last four bytes of the second block of 95 V11, `blk = 1`, `t = 15`. -/
def lastLoad : State :=
  { State.reset with
    ph := .schLoad, blk := 1, t := 15, pad := [(124, 0x00), (125, 0x00), (126, 0x01), (127, 0xc0)] }

/-- The schedule of "abc" before its first derived word, at a given `t` (95 V11). -/
def expandAbc (t : BitVec 7) : State :=
  { State.reset with
    ph := .schExp
    t := t
    sched := ((Vector.replicate 64 (0 : Word)).set 0 0x61626380).set 15 0x00000018 }

/-- Round 0 of the block of "abc" (95 V10). -/
def roundAbc : State :=
  { State.reset with
    ph := .cmpRound
    vars := Vars.ofVector Rom.iv
    sched := (Vector.replicate 64 (0 : Word)).set 0 0x61626380 }

/-! ### WellFormed and the decoder -/

/-- Ill-formed packets: a reserved host code (30 R91), the idle phase (44 R201), a reserved phase (30 R92). -/
theorem test_wellFormed_refuses :
    (Packet.host ⟨9, 0, 0⟩).wellFormed = false ∧ (Packet.host ⟨15, 0, 0⟩).wellFormed = false ∧
    (Packet.uop 0).wellFormed = false ∧ (Packet.uop 11).wellFormed = false ∧ (Packet.uop 15).wellFormed = false := by
  decide

theorem test_wellFormed_accepts :
    (Packet.host ⟨0, 0, 0⟩).wellFormed = true ∧ (Packet.host ⟨8, 7, 7⟩).wellFormed = true ∧
    (Packet.uop 1).wellFormed = true ∧ (Packet.uop 10).wellFormed = true := by
  decide

theorem test_decode_rejects_by_name :
    decode (.host ⟨0b1001#4, 1, 2⟩) = .error (.reservedHop 9) ∧ decode (.uop 0b0000#4) = .error .idlePhase ∧
    decode (.uop 0b1111#4) = .error (.reservedPhase 15) := ⟨rfl, rfl, rfl⟩

/-- Every host operation's word, written out from 30 R87, with the buses it ignores at a value. -/
theorem test_decode_host_family :
    decode (.host ⟨0b0000#4, 5, 6⟩) = .ok .hnop ∧ decode (.host ⟨0b0001#4, 5, 0x41⟩) = .ok (.hwrMsg 5 0x41) ∧
    decode (.host ⟨0b0010#4, 5, 3⟩) = .ok (.hwrLen 3) ∧ decode (.host ⟨0b0011#4, 5, 6⟩) = .ok .hstart ∧
    decode (.host ⟨0b0100#4, 5, 6⟩) = .ok .hrdStatus ∧ decode (.host ⟨0b0101#4, 31, 6⟩) = .ok (.hrdDigest 31) ∧
    decode (.host ⟨0b0110#4, 7, 6⟩) = .ok (.hrdIv 7) ∧ decode (.host ⟨0b0111#4, 63, 6⟩) = .ok (.hrdK 63) ∧
    decode (.host ⟨0b1000#4, 5, 6⟩) = .ok .hrdLen := ⟨rfl, rfl, rfl, rfl, rfl, rfl, rfl, rfl, rfl⟩

/-- Every micro-operation's phase code, written out from 30 R89. -/
theorem test_decode_uop_family :
    decode (.uop 0b0001#4) = .ok .uHinit ∧ decode (.uop 0b0010#4) = .ok .uPadcopy ∧
    decode (.uop 0b0011#4) = .ok .uPadmark ∧ decode (.uop 0b0100#4) = .ok .uPadzero ∧
    decode (.uop 0b0101#4) = .ok .uPadlen ∧ decode (.uop 0b0110#4) = .ok .uSchload ∧
    decode (.uop 0b0111#4) = .ok .uSchexp ∧ decode (.uop 0b1000#4) = .ok .uCmpinit ∧
    decode (.uop 0b1001#4) = .ok .uCmpround ∧ decode (.uop 0b1010#4) = .ok .uCmpfold :=
  ⟨rfl, rfl, rfl, rfl, rfl, rfl, rfl, rfl, rfl, rfl⟩

theorem test_tableWord :
    decodeTableWord 8 0 = some .hnop ∧ decodeTableWord 8 8 = some .hrdLen ∧
    decodeTableWord 8 10 = some .uCmpfold ∧ decodeTableWord 8 11 = none := by
  decide

/-! ### Word operations (95 V7, V8, V9) -/

theorem test_word_operations :
    add32 0xfffffffe 0x00000003 = 0x00000001 ∧ rotr 0x80000001 1 = 0xc0000000 ∧
    rotr 0x80000000 31 = 0x00000001 ∧ shr 0x80000001 1 = 0x40000000 ∧ shr 0xffffffff 13 = 0x0007ffff := by
  decide

theorem test_sigma :
    ssig0 0x510e527f = 0x601c02a8 ∧ ssig1 0x510e527f = 0xe3640132 ∧
    bsig0 0x510e527f = 0x7ef0e1a9 ∧ bsig1 0x510e527f = 0x3587272b ∧
    ssig0 0xffffffff = 0x1fffffff ∧ ssig1 0xffffffff = 0x003fffff := by
  decide

theorem test_ch_maj :
    ch 0x510e527f 0x9b05688c 0x1f83d9ab = 0x1f85c98c ∧ ch 0xf0f0f0f0 0xaaaaaaaa 0x55555555 = 0xa5a5a5a5 ∧
    maj 0x6a09e667 0xbb67ae85 0x3c6ef372 = 0x3a6fe667 ∧ maj 0 0xffffffff 0xffffffff = 0xffffffff := by
  decide

/-! ### Functions (95 V12, V15) -/

theorem test_rom_iv_checksums :
    Rom.iv.toList.foldl add32 0 = 0x6ea8df67 ∧ Rom.iv.toList.foldl (· ^^^ ·) 0 = 0xc62760eb := by decide

set_option maxRecDepth 4000 in
theorem test_rom_k_checksums :
    Rom.k.toList.foldl add32 0 = 0x941d1755 ∧ Rom.k.toList.foldl (· ^^^ ·) 0 = 0x95c49cf5 := by decide

theorem test_padding_lengths :
    zfill 0 = 55 ∧ zfill 55 = 0 ∧ zfill 56 = 63 ∧ zfill 63 = 56 ∧ nblk 55 = 1 ∧ nblk 56 = 2 ∧
    nblk 119 = 2 ∧ nblk 120 = 3 ∧ runLength 0 = 188 ∧ runLength 184 = 770 ∧
    runLength (2 ^ 61 - 1) = 6989586621679009980 := by
  decide

/-- 95 V17, `pad("abc")` around the terminator and at the end. -/
theorem test_padMessage_abc :
    (padMessage [0x61, 0x62, 0x63]).map (List.take 5) = some [0x61, 0x62, 0x63, 0x80, 0x00] ∧
    (padMessage [0x61, 0x62, 0x63]).map (List.drop 62) = some [0x00, 0x18] := by
  decide

/-- 95 V14. -/
theorem test_hex : hex [0xea, 0x01, 0x00] = ['e', 'a', '0', '1', '0', '0'] := by decide

/-! ### Host operations (95 V16, V18) -/

theorem test_hnop : after (exec .hnop finishedAbc) (fun s => (s.hrdata, s.valid)) = some (0, true) := by decide

/-- V16 row 6: `hwdata[63:8]` is ignored. -/
theorem test_hwrMsg_byte :
    after (exec (.hwrMsg 5 0xffffffffffffff41) loaded) (fun s => s.msg) = some [(0, 0x61), (5, 0x41)] := by decide

/-- V16 rows 7 and 12: outside the memory, and while busy. -/
theorem test_hwrMsg_dropped :
    after (exec (.hwrMsg 3 0x61) small) (fun s => s.msg) = some [] ∧
    after (exec (.hwrMsg 0 0x00) (inPhase .cmpRound)) (fun s => s.msg) = some [] := by decide

/-- V16 rows 9 and 13. -/
theorem test_hwrLen :
    after (exec (.hwrLen 0x2000000000000000) loaded) (fun s => s.len) = some 0x2000000000000000 ∧
    after (exec (.hwrLen 99) started) (fun s => s.len) = some 1 := by decide

/-- V16 rows 10 and 14; V18: the largest length is accepted. -/
theorem test_hstart_accepted :
    after (exec .hstart finishedAbc) (fun s => (s.status, s.ph)) = some (0x001, .hInit) ∧
    after (exec .hstart { State.reset with len := 0x1fffffffffffffff }) (fun s => s.status) = some 0x001 ∧
    after (exec .hstart (inPhase .cmpRound)) (fun s => s.ph) = some .cmpRound := by decide

/-- V18: the first length too long, one that a truncating test would take for 1, and the capacity case. -/
theorem test_hstart_rejected :
    after (exec .hstart { finishedAbc with len := 0x2000000000000000 }) (fun s => s.status) = some 0x104 ∧
    after (exec .hstart { State.reset with len := 0x2000000000000001 }) (fun s => s.status) = some 0x104 ∧
    after (exec .hstart { small with len := 4 }) (fun s => (s.status, s.ph)) = some (0x104, .idle) := by decide

/-- V16 rows 2, 15, 19. -/
theorem test_hrdStatus :
    after (exec .hrdStatus State.reset) (fun s => s.hrdata) = some 0x000 ∧
    after (exec .hrdStatus (inPhase .cmpRound)) (fun s => s.hrdata) = some 0x001 ∧
    after (exec .hrdStatus finishedAbc) (fun s => s.hrdata) = some 0x002 ∧
    after (exec .hrdStatus rejected) (fun s => s.hrdata) = some 0x104 := by decide

/-- V14. -/
theorem test_hrdDigest :
    after (exec (.hrdDigest 0) finishedAbc) (fun s => s.hrdata) = some 0xba ∧
    after (exec (.hrdDigest 3) finishedAbc) (fun s => s.hrdata) = some 0xbf ∧
    after (exec (.hrdDigest 28) finishedAbc) (fun s => s.hrdata) = some 0xf2 ∧
    after (exec (.hrdDigest 31) finishedAbc) (fun s => s.hrdata) = some 0xad := by decide

/-- V16 rows 4 and 21 complete, with a value no one fixes. -/
theorem test_hrdDigest_unspecified :
    after (exec (.hrdDigest 0) State.reset) (fun s => s.valid) = some false ∧
    after (exec (.hrdDigest 32) finishedAbc) (fun s => s.valid) = some true := ⟨rfl, rfl⟩

/-- V12. -/
theorem test_hrdIv : after (exec (.hrdIv 7) State.reset) (fun s => s.hrdata) = some 0x000000005be0cd19 := by decide

/-- V12; V16 row 17. -/
theorem test_hrdK :
    after (exec (.hrdK 63) State.reset) (fun s => s.hrdata) = some 0x00000000c67178f2 ∧
    after (exec (.hrdK 1) (inPhase .cmpRound)) (fun s => s.hrdata) = some 0x71374491 := by decide

theorem test_hrdLen : after (exec .hrdLen started) (fun s => s.hrdata) = some 1 := by decide

/-! ### Micro-operations (95 V10, V11, V17) -/

theorem test_uHinit :
    after (exec .uHinit started) (fun s => (s.ph, s.pp, s.hash[7])) = some (.padCopy, 0, 0x5be0cd19) ∧
    after (exec .uHinit (inPhase .hInit)) (fun s => s.ph) = some .padMark := by decide

/-- V17, the last byte of a message. -/
theorem test_uPadcopy :
    after (exec .uPadcopy { loaded with ph := .padCopy }) (fun s => (s.pad, s.pp, s.ph)) =
      some ([(0, 0x61)], 1, .padMark) := by decide

/-- V17: `L = 3`, and `L = 55`, where no zero byte follows. -/
theorem test_uPadmark :
    after (exec .uPadmark { inPhase .padMark with pp := 3 }) (fun s => (s.pad, s.pp, s.ph)) =
      some ([(3, 0x80)], 4, .padZero) ∧
    after (exec .uPadmark { inPhase .padMark with pp := 55 }) (fun s => s.ph) = some .padLen := by decide

/-- V17: the last zero byte, and the block boundary crossed without any action. -/
theorem test_uPadzero :
    after (exec .uPadzero { inPhase .padZero with pp := 55 }) (fun s => (s.pad, s.pp, s.ph)) =
      some ([(55, 0x00)], 56, .padLen) ∧
    after (exec .uPadzero { inPhase .padZero with pp := 63 }) (fun s => (s.pp, s.ph)) =
      some (64, .padZero) := by decide

/-- V17, the length field of 56 bytes, `0x1c0`. -/
theorem test_uPadlen :
    after (exec .uPadlen { inPhase .padLen with pp := 120, len := 56, blk := 9, t := 9 })
        (fun s => (s.pad.drop 5, s.pp, s.blk, s.t, s.ph)) =
      some ([(125, 0x00), (126, 0x01), (127, 0xc0)], 128, 0, 0, .schLoad) := by decide

theorem test_uSchload :
    after (exec .uSchload lastLoad) (fun s => (s.sched[15], s.t, s.ph)) =
      some (0x000001c0, 16, .schExp) := by decide

theorem test_uSchexp :
    after (exec .uSchexp (expandAbc 16)) (fun s => s.sched[16]) = some 0x61626380 ∧
    after (exec .uSchexp (expandAbc 17)) (fun s => (s.sched[17], s.t, s.ph)) =
      some (0x000f0000, 18, .schExp) := by decide

theorem test_uCmpinit :
    after (exec .uCmpinit { inPhase .cmpInit with hash := Rom.iv, t := 64 })
        (fun s => (s.vars.a, s.vars.h, s.t, s.ph)) =
      some (0x6a09e667, 0x5be0cd19, 0, .cmpRound) := by decide

theorem test_uCmpround :
    after (exec .uCmpround roundAbc) (fun s => (s.vars, s.t)) =
      some (⟨0x5d6aebcd, 0x6a09e667, 0xbb67ae85, 0x3c6ef372, 0xfa2a4622, 0x510e527f, 0x9b05688c, 0x1f83d9ab⟩, 1) := by
  decide

theorem test_uCmpfold_last :
    after (exec .uCmpfold foldAbc) (fun s => (s.hash, s.blk, s.valid, s.ph)) =
      some (finishedAbc.hash, 1, true, .idle) := by decide

theorem test_uCmpfold_more :
    after (exec .uCmpfold { foldAbc with pp := 128, t := 64 }) (fun s => (s.blk, s.t, s.valid, s.ph)) =
      some (1, 0, false, .schLoad) := by decide

/-! ### Reset and the step (95 V19) -/

theorem test_reset_event :
    after (step { inPhase .cmpRound with t := 17, len := 3, inputs := [.reset, .sequencer] })
      (fun s => (s.status, s.len, s.inputs)) = some (0x000, 0, [.sequencer]) := rfl

/-- An idle core with nothing listed waits. -/
theorem test_step_waits : after (step State.reset) (fun s => s) = some State.reset := rfl

theorem test_step_refuses_reserved :
    step { State.reset with inputs := [.host ⟨9, 0, 0⟩] } = .refused (.reservedHop 9) := rfl

/-! ### Witnesses: states and operands that meet the hypotheses of the statements -/

theorem witness_HostCodesDecodeAsTabulated : (9 : BitVec 4) ≤ 9 ∧ (9 : BitVec 4) ≤ 15 := by decide

theorem witness_PhaseCodesSelectMicroOperations : (11 : BitVec 4) ≤ 11 ∧ (11 : BitVec 4) ≤ 15 := by decide

theorem witness_DecodeInvertsEncode : decode (.host ⟨7, 63, 9⟩) = .ok (.hrdK 63) := rfl

theorem witness_TableWordsRoundTrip :
    Instr.isHost (.hwrMsg 0xffffffffffffffff 0xffffffffffffffff) = true := rfl

theorem witness_ReservedHostCodeIsRefused :
    ({ State.reset with inputs := [.host ⟨15, 1, 2⟩] } : State).inputs = .host ⟨15, 1, 2⟩ :: [] ∧
    (9 : BitVec 4) ≤ (⟨15, 1, 2⟩ : HostWord).hop := by decide

theorem witness_HostStepRunsDecodedInstruction :
    ({ State.reset with inputs := [.host ⟨1, 3, 0x61⟩] } : State).inputs = .host ⟨1, 3, 0x61⟩ :: [] ∧
    decode (.host ⟨1, 3, 0x61⟩) = .ok (.hwrMsg 3 0x61) := ⟨rfl, rfl⟩

theorem witness_SequencerStepRunsThePhase :
    started.sequencerNext = true ∧ decode (.uop started.ph.code) = .ok .uHinit ∧
    ({ State.reset with inputs := [.sequencer] } : State).sequencerNext = true ∧ State.reset.ph = .idle :=
  ⟨rfl, rfl, rfl, rfl⟩

theorem witness_PlacedTableWordRunsNext :
    decodeTableWord 8 9 = some .uCmpround ∧ decodeTableWord 8 3 = some .hstart ∧ Instr.isHost .hstart = true := by
  decide

theorem witness_ResetEventClearsControlState :
    ({ started with inputs := [.reset] } : State).inputs = .reset :: [] := rfl

theorem witness_ResetForgetsTheInterruptedRun :
    let s : State := { started with inputs := [.reset] }
    let u : State := { finishedAbc with inputs := [.reset] }
    s.inputs = .reset :: [] ∧ u.inputs = .reset :: [] ∧ s.cfg = u.cfg ∧ s.hrdata = u.hrdata ∧ s.draws = u.draws :=
  ⟨rfl, rfl, rfl, rfl, rfl⟩

/-- The flags' invariants hold in a state of each of the four kinds. -/
theorem witness_StatusTakesFourValues :
    State.reset.FlagsWf ∧ started.FlagsWf ∧ finishedAbc.FlagsWf ∧ rejected.FlagsWf := by
  refine ⟨⟨?_, ?_, ?_, ?_⟩, ⟨?_, ?_, ?_, ?_⟩, ⟨?_, ?_, ?_, ?_⟩, ⟨?_, ?_, ?_, ?_⟩⟩ <;> decide

theorem witness_HwrMsgStoresOneByte :
    small.ph = .idle ∧ (2 : Dword).toNat < small.cfg.msgCap.val ∧ small.cfg.msgCap.val ≤ (3 : Dword).toNat ∧
    (inPhase .padCopy).ph ≠ .idle := by decide

theorem witness_HwrLenStoresTheLength : State.reset.ph = .idle ∧ started.ph ≠ .idle := by decide

theorem witness_BusyGateDropsWritesAndStarts : started.ph ≠ .idle := by decide

theorem witness_HstartAcceptedStartsARun :
    let s : State := { small with len := 3 }
    s.ph = .idle ∧ 8 * s.len.toNat < 2 ^ 64 ∧ s.len.toNat ≤ s.cfg.msgCap.val := by decide

theorem witness_HstartRejectsTooLargeInput :
    let s : State := { State.reset with len := 0x2000000000000000 }
    let u : State := { small with len := 4 }
    (s.ph = .idle ∧ 2 ^ 64 ≤ 8 * s.len.toNat) ∧ u.ph = .idle ∧ u.cfg.msgCap.val < u.len.toNat := by decide

theorem witness_InputTooLargeIsExact :
    2 ^ 61 ≤ ({ State.reset with len := 0x2000000000000000 } : State).len.toNat ∧
    ({ small with len := 4 } : State).inputTooLarge = true := by decide

theorem witness_HrdDigestReadsTheWindow : finishedAbc.valid = true ∧ (31 : Dword).toNat ≤ 31 := by decide

theorem witness_UnspecifiedReadsAnswerAFreeValue :
    State.reset.valid = false ∧ 32 ≤ (32 : Dword).toNat ∧ 8 ≤ (8 : Dword).toNat ∧ 64 ≤ (64 : Dword).toNat := by decide

theorem witness_RomReadsReturnTheWord : (7 : Dword).toNat < 8 ∧ (63 : Dword).toNat < 64 := by decide

/-- The last address of `MSG`, and a byte that is held. -/
theorem witness_UPadcopyCopiesOneByte :
    ({ small with pp := 2 } : State).pp.toNat < small.cfg.msgCap.val ∧
    loaded.pp.toNat < loaded.cfg.msgCap.val ∧ (loaded.msg.read loaded.pp.toNat).isSome = true := by decide

/-- The last address of `PAD`. -/
theorem witness_UPadmarkAppendsTheTerminator : ({ small with pp := 63 } : State).pp.toNat < small.padCap := by decide

theorem witness_UPadzeroAppendsOneZero : ({ small with pp := 63 } : State).pp.toNat < small.padCap := by decide

theorem witness_UPadlenAppendsTheBitLength :
    let s : State := { small with pp := 56, len := 0x1fffffffffffffff }
    8 * s.len.toNat < 2 ^ 64 ∧ s.pp.toNat + 8 ≤ s.padCap := by decide

theorem witness_USchloadLoadsABigEndianWord :
    lastLoad.t.toNat ≤ 15 ∧ 64 * lastLoad.blk.toNat + 4 * lastLoad.t.toNat + 4 ≤ lastLoad.padCap ∧
    lastLoad.pad.read 124 = some 0x00 ∧ lastLoad.pad.read 125 = some 0x00 ∧ lastLoad.pad.read 126 = some 0x01 ∧
    lastLoad.pad.read 127 = some 0xc0 ∧ 64 * lastLoad.blk.toNat + 4 * lastLoad.t.toNat = 124 := by decide

theorem witness_USchexpDerivesOneWord :
    16 ≤ (expandAbc 16).t.toNat ∧ (expandAbc 16).t.toNat ≤ 63 ∧ 16 ≤ (expandAbc 63).t.toNat ∧
    (expandAbc 63).t.toNat ≤ 63 := by decide

theorem witness_UCmproundRunsOneRound : roundAbc.t.toNat < 64 ∧ ({ roundAbc with t := 63 } : State).t.toNat < 64 := by
  decide

/-- Each clause at the first value that meets it. -/
theorem witness_ImpossibleAccessesFaultByName :
    small.cfg.msgCap.val ≤ ({ small with pp := 3 } : State).pp.toNat ∧
    small.padCap ≤ ({ small with pp := 64 } : State).pp.toNat ∧
    2 ^ 64 ≤ 8 * ({ State.reset with len := 0x2000000000000000 } : State).len.toNat ∧
    (8 * small.len.toNat < 2 ^ 64 ∧ small.padCap < ({ small with pp := 57 } : State).pp.toNat + 8) ∧
    small.padCap < ({ small with blk := 1 } : State).loadAddress + 4 ∧
    (({ State.reset with t := 64 } : State).loadAddress + 4 ≤ State.reset.padCap ∧
      64 ≤ ({ State.reset with t := 64 } : State).t.toNat) ∧
    (expandAbc 15).t.toNat < 16 := by decide

theorem witness_RotateRightMovesEachBit : 1 ≤ 1 ∧ 1 ≤ 31 ∧ 31 ≤ 31 ∧ 0 < 32 ∧ 31 < 32 := by decide

theorem witness_AddWrapsAndShiftDivides : (0 < 32 ∧ 31 < 32) ∧ 0 ≤ 31 ∧ 31 ≤ 31 := by decide

theorem witness_ChooseAndMajorityBitByBit : 0 < 32 ∧ 31 < 32 := by decide

theorem witness_SigmaFunctionsBitByBit : 0 < 32 ∧ 31 < 32 := by decide

/-- 40 R112: the fraction of a whole number is 0, and that of one half is 2^31. -/
theorem test_fracBits : FracBits 5 0 ∧ FracBits (1 / 2) (2 ^ 31) := by
  refine ⟨by simp [FracBits], ?_⟩
  have half : Int.fract ((1 : ℝ) / 2) = 1 / 2 := by
    rw [Int.fract_eq_self]
    norm_num
  rw [FracBits, half, show (1 : ℝ) / 2 * 2 ^ 32 = ((2 ^ 31 : ℕ) : ℝ) by norm_num, Nat.floor_natCast]

theorem witness_RomHoldsSquareRootFractions :
    (0 ≤ (5 : ℝ) ∧ FracBits 5 0) ∧ (0 ≤ (1 / 2 : ℝ) ∧ FracBits (1 / 2) (2 ^ 31)) ∧ 0 < 8 ∧ 7 < 8 :=
  ⟨⟨by norm_num, test_fracBits.1⟩, ⟨by norm_num, test_fracBits.2⟩, by decide⟩

theorem witness_RomHoldsCubeRootFractions : 0 < 64 ∧ 63 < 64 := by decide

/-- The least zero fill after 55 bytes is none; and a message that has a padding. -/
theorem witness_PaddingLengths : (55 + 1 + 0) % 64 = 56 ∧ ∃ p, padMessage [0x61] = some p := ⟨by decide, _, rfl⟩

/-- The longest message with a padding and the shortest without one; the clauses on one byte each, for the
empty message and for "a"; the last byte of the length field. -/
theorem witness_PaddedMessageLayoutAndInjectivity :
    (8 * (2 ^ 61 - 1) < 2 ^ 64 ∧ ¬ 8 * 2 ^ 61 < 2 ^ 64) ∧
    (∃ p, padMessage [] = some p) ∧ (∃ p, padMessage [0x61] = some p) ∧
    0 < ([0x61] : List Byte).length ∧ ([] : List Byte).length < 1 ∧ 55 ≤ ([] : List Byte).length + zfill 0 ∧ 7 < 8 :=
  ⟨by decide, ⟨_, rfl⟩, ⟨_, rfl⟩, by decide, by decide, by decide, by decide⟩

theorem witness_DigestIsThirtyTwoBytes : (∃ d, sha256 [0x61] = some d) ∧ 0 < 32 ∧ 31 < 32 :=
  ⟨⟨_, rfl⟩, by decide, by decide⟩

/-- The invariant in a state of a run. -/
theorem started_inv : started.Inv := by
  refine ⟨⟨?_, ?_, ?_, ?_⟩, ⟨?_, ?_, ?_, ?_⟩, ⟨fun _ => ?_, trivial⟩, fun _ h => absurd rfl h⟩ <;> decide

/-- The invariant in the next phase of that run, with nothing padded yet. -/
theorem copying_inv : ({ started with ph := .padCopy } : State).Inv := by
  refine ⟨⟨?_, ?_, ?_, ?_⟩, ⟨?_, ?_, ?_, ?_⟩, ⟨fun _ => ?_, ?_⟩, fun _ _ q hq => absurd hq (Nat.not_lt_zero q)⟩ <;>
    decide

theorem loaded_inv : loaded.Inv := by
  refine ⟨⟨?_, ?_, ?_, ?_⟩, ⟨?_, ?_, ?_, ?_⟩, ⟨?_, trivial⟩, fun h => absurd rfl h⟩ <;> decide

theorem started_steps :
    step started = .next { started with hash := Rom.iv, ph := .padCopy } := rfl

theorem witness_StepKeepsTheInvariant : started.Inv ∧ ∃ u, step started = .next u :=
  ⟨started_inv, _, started_steps⟩

/-- One state whose step completes and one whose step is refused, both meeting the invariant. -/
theorem witness_StepNeverFaults :
    started.Inv ∧ ({ started with inputs := [.host ⟨9, 0, 0⟩] } : State).Inv := ⟨started_inv, started_inv⟩

theorem witness_ParameterIsNeverWritten : ∃ u, step started = .next u := ⟨_, started_steps⟩

theorem witness_MessageIsFixedDuringARun :
    started.ph ≠ .idle ∧ started.resetNext = false ∧ ∃ u, step started = .next u :=
  ⟨by decide, rfl, _, started_steps⟩

/-- The last fold of a run, and an idle core on which the host starts one. -/
theorem witness_PaddedMessageIsNeverMutated :
    (foldAbc.ph = .cmpFold ∧ foldAbc.resetNext = false ∧ ∃ u, step foldAbc = .next u) ∧
    State.reset.ph = .idle ∧ ({ State.reset with inputs := [.host ⟨3, 0, 0⟩] } : State).resetNext = false ∧
    ∃ u, step { State.reset with inputs := [.host ⟨3, 0, 0⟩] } = .next u :=
  ⟨⟨rfl, rfl, _, rfl⟩, rfl, rfl, _, rfl⟩

theorem witness_ValidRisesOnlyAtTheLastFold :
    foldAbc.valid = false ∧ foldAbc.ph ≠ .idle ∧ foldAbc.resetNext = false ∧
    ∃ u, step foldAbc = .next u ∧ u.valid = true ∧ u.ph = .idle := ⟨rfl, by decide, rfl, _, rfl, rfl, rfl⟩

/-- With a write of a message byte as the step. -/
theorem witness_DigestIsStableUntilTheNextStart :
    let s : State := { finishedAbc with inputs := [.host ⟨1, 0, 0x62⟩] }
    s.FlagsWf ∧ s.valid = true ∧ s.startNext = false ∧ s.resetNext = false ∧ ∃ u, step s = .next u := by
  refine ⟨⟨?_, ?_, ?_, ?_⟩, rfl, rfl, rfl, _, rfl⟩ <;> decide

/-- A reset event, an accepted start, and a sequencer step in every phase, on each side of its condition. -/
theorem witness_PhaseGraphTransitions :
    (let s : State := { started with inputs := [.reset] }
     s.resetNext = true ∧ ∃ u, step s = .next u) ∧
    (let s : State := { loaded with inputs := [.host ⟨3, 0, 0⟩] }
     s.sequencerNext = false ∧ s.resetNext = false ∧ ∃ u, step s = .next u) ∧
    (State.reset.sequencerNext = true ∧ ∃ u, step State.reset = .next u) ∧
    (started.sequencerNext = true ∧ ∃ u, step started = .next u) ∧
    (∃ u, step (inPhase .hInit) = .next u) ∧
    (∃ u, step { loaded with ph := .padCopy } = .next u) ∧
    (∃ u, step { loaded with ph := .padCopy, len := 2 } = .next u) ∧
    (∃ u, step { inPhase .padMark with pp := 3 } = .next u) ∧
    (∃ u, step { inPhase .padMark with pp := 55 } = .next u) ∧
    (∃ u, step { inPhase .padZero with pp := 55 } = .next u) ∧
    (∃ u, step { inPhase .padZero with pp := 63 } = .next u) ∧
    (∃ u, step { inPhase .padLen with pp := 56 } = .next u) ∧
    (∃ u, step { lastLoad with t := 14 } = .next u) ∧
    (∃ u, step lastLoad = .next u) ∧
    (∃ u, step (expandAbc 16) = .next u) ∧
    (∃ u, step (expandAbc 63) = .next u) ∧
    (∃ u, step (inPhase .cmpInit) = .next u) ∧
    (∃ u, step roundAbc = .next u) ∧
    (∃ u, step { roundAbc with t := 63 } = .next u) ∧
    (∃ u, step foldAbc = .next u) ∧
    ∃ u, step { foldAbc with pp := 128 } = .next u :=
  ⟨⟨rfl, _, rfl⟩, ⟨rfl, rfl, _, rfl⟩, ⟨rfl, _, rfl⟩, ⟨rfl, _, rfl⟩, ⟨_, rfl⟩, ⟨_, rfl⟩, ⟨_, rfl⟩, ⟨_, rfl⟩,
   ⟨_, rfl⟩, ⟨_, rfl⟩, ⟨_, rfl⟩, ⟨_, rfl⟩, ⟨_, rfl⟩, ⟨_, rfl⟩, ⟨_, rfl⟩, ⟨_, rfl⟩, ⟨_, rfl⟩, ⟨_, rfl⟩, ⟨_, rfl⟩,
   ⟨_, rfl⟩, _, rfl⟩

/-- Two cores in the same control state with different bytes and words. -/
theorem witness_ControlIgnoresData :
    let s : State := { started with ph := .padCopy }
    let u : State := { s with msg := [(0, 0x62)], hash := Rom.iv, draws := 5 }
    s.sequencerNext = true ∧
    u = { s with
      msg := u.msg, pad := u.pad, sched := u.sched, hash := u.hash, vars := u.vars
      hrdata := u.hrdata, draws := u.draws } ∧
    ∃ s', step s = .next s' := ⟨rfl, rfl, _, rfl⟩

theorem witness_HostCannotDisturbTheCore :
    Instr.isHost (.hwrMsg 0 0x61) = true ∧ started.ph ≠ .idle := by decide

/-- Two running cores that differ in the hash state, and two finished ones that agree in it. -/
theorem witness_HiddenStateNeverReachesTheHost :
    (let u : State := { started with hash := Rom.iv, t := 3, pad := [(0, 1)] }
     u = { started with
       msg := u.msg, pad := u.pad, sched := u.sched, vars := u.vars, pp := u.pp, blk := u.blk, t := u.t
       hash := u.hash } ∧ (started.valid = true → u.hash = started.hash)) ∧
    (let u : State := { finishedAbc with msg := [(0, 1)], vars := Vars.ofVector Rom.iv }
     u = { finishedAbc with
       msg := u.msg, pad := u.pad, sched := u.sched, vars := u.vars, pp := u.pp, blk := u.blk, t := u.t
       hash := u.hash } ∧ (finishedAbc.valid = true → u.hash = finishedAbc.hash)) ∧
    Instr.isHost (.hrdDigest 0) = true ∧ (∃ s', exec (.hrdDigest 0) started = .next s') ∧
    ∃ s', exec (.hrdDigest 0) finishedAbc = .next s' :=
  ⟨⟨rfl, fun h => absurd h (by decide)⟩, ⟨rfl, fun _ => rfl⟩, rfl, ⟨_, rfl⟩, _, rfl⟩

/-- A sequencer step of a run, a host step in it, and a start of the longest message of a small core. -/
theorem witness_StepsLeftCountsDown :
    (started.Inv ∧ started.ph ≠ .idle ∧ started.sequencerNext = true) ∧
    (let s : State := { started with inputs := [.host ⟨4, 0, 0⟩] }
     s.ph ≠ .idle ∧ s.sequencerNext = false ∧ s.resetNext = false ∧ ∃ u, step s = .next u) ∧
    let s : State := { small with len := 3 }
    s.ph = .idle ∧ s.len.toNat ≤ s.cfg.msgCap.val :=
  ⟨⟨started_inv, by decide, rfl⟩, ⟨by decide, rfl, rfl, _, rfl⟩, rfl, by decide⟩

theorem loaded_holds : loaded.HoldsMessage [0x61] := ⟨rfl, by decide⟩

theorem started_computing : started.Computing [0x61] := ⟨⟨rfl, by decide⟩, _, rfl, trivial⟩

theorem witness_RunKeepsComputingTheDigest :
    (loaded.ph = .idle ∧ loaded.HoldsMessage [0x61] ∧ ([0x61] : List Byte).length ≤ loaded.cfg.msgCap.val) ∧
    started.Inv ∧ started.Computing [0x61] ∧ started.resetNext = false ∧ ∃ u, step started = .next u :=
  ⟨⟨rfl, loaded_holds, by decide⟩, started_inv, started_computing, rfl, _, started_steps⟩

/-- The run on "a" with a status read and a dropped write interleaved, and a read of the digest to come. -/
theorem witness_RunComputesSha256 :
    let moves : List Input :=
      .sequencer :: .host ⟨4, 0, 0⟩ :: .host ⟨1, 0, 0x62⟩ :: List.replicate 186 .sequencer
    let s : State := { loaded with inputs := .host ⟨3, 0, 0⟩ :: (moves ++ .sequencer :: [.host ⟨5, 0, 0⟩]) }
    s.Inv ∧ s.ph = .idle ∧ s.HoldsMessage [0x61] ∧ ([0x61] : List Byte).length ≤ s.cfg.msgCap.val ∧
    s.inputs = .host ⟨3, 0, 0⟩ :: (moves ++ .sequencer :: [.host ⟨5, 0, 0⟩]) ∧ quietInputs moves ∧
    moves.count .sequencer + 1 = 194 * nblk 1 - 6 := by
  refine ⟨loaded_inv, rfl, loaded_holds, by decide, rfl, ?_, ?_⟩
  · intro i hi
    simp only [List.mem_cons, List.mem_replicate] at hi
    rcases hi with rfl | rfl | rfl | ⟨-, rfl⟩ <;> trivial
  · simp only [List.count_cons, List.count_replicate]
    decide

/-- The clauses on `DIGEST` for "a" at the last number of steps too few and the first that is enough, and
for the first length too long for a small core. -/
theorem witness_RunComputesSha256_digest :
    (State.reset.Inv ∧ State.reset.ph = .idle ∧ small.Inv ∧ small.ph = .idle) ∧
    (let m : List Byte := [0x61]
     m.length ≤ State.reset.cfg.msgCap.val ∧ [100, 87].sum < 194 * nblk m.length - 6 ∧
       194 * nblk m.length - 6 ≤ [100, 88].sum) ∧
    (let m : List Byte := [0x61, 0x62, 0x63, 0x64]
     small.cfg.msgCap.val < m.length ∧ m.length < 2 ^ 64 ∧ [0] ≠ []) ∧
    2 ^ 61 ≤ (List.replicate (2 ^ 61) (0 : Byte)).length := by
  refine ⟨⟨⟨⟨?_, ?_, ?_, ?_⟩, ⟨?_, ?_, ?_, ?_⟩, ⟨?_, trivial⟩, fun h => absurd rfl h⟩, rfl,
    ⟨⟨?_, ?_, ?_, ?_⟩, ⟨?_, ?_, ?_, ?_⟩, ⟨?_, trivial⟩, fun h => absurd rfl h⟩, rfl⟩, by decide, by decide, Nat.le_of_eq List.length_replicate.symm⟩ <;> decide

/-! ### The host's pseudo-instructions (30 R95, 95 V14, V18) -/

theorem test_loadMsg_operations :
    loadMsgOps [0x61, 0x62] = some [⟨1, 0, 0x61⟩, ⟨1, 1, 0x62⟩, ⟨2, 0, 2⟩] ∧
    loadMsgOps [] = some [⟨2, 0, 0⟩] := by decide

/-- V14: the 32 bytes `READDIGEST` collects are the digest of "abc", in order. -/
theorem test_readDigest_abc :
    reply finishedAbc.readDigest (fun r => r.1) =
      some [0xba, 0x78, 0x16, 0xbf, 0x8f, 0x01, 0xcf, 0xea, 0x41, 0x41, 0x40, 0xde, 0x5d, 0xae, 0x22, 0x23,
        0xb0, 0x03, 0x61, 0xa3, 0x96, 0x17, 0x7a, 0x9c, 0xb4, 0x10, 0xff, 0x61, 0xf2, 0x00, 0x15, 0xad] := by
  decide

/-- `WAIT` reads until `BUSY` is 0: on an idle core once, on the last fold of a run once its step is taken. -/
theorem test_wait :
    reply (finishedAbc.wait [0, 0]) (fun r => (r.1, r.2.hrdata)) = some (true, 0x002) ∧
    reply (foldAbc.wait [0, 1]) (fun r => (r.1, r.2.hrdata)) = some (true, 0x002) ∧
    reply (foldAbc.wait [0, 0]) (fun r => (r.1, r.2.hrdata)) = some (false, 0x001) := by decide

/-- V18: a message longer than the core allows ends `DIGEST` with `InputTooLarge`. -/
theorem test_digest_tooLarge :
    reply (small.digest [0x61, 0x62, 0x63, 0x64] [0]) (fun r => (r.1, r.2.status)) =
      some (.inputTooLarge, 0x104) := by decide

end Sys2Proof.Tests
end

section
/-! What a host operation can do and what a micro-operation leaves alone, said once for the proofs on
whole steps. -/

namespace Sys2Proof.Machine

/-- An operation under the gate of 44 R213 only answers, or acts while idle. -/
theorem State.gated_cases (s : State) (f : State → State) :
    s.gated f = s.answer 0 ∨ s.ph = .idle ∧ s.gated f = (f s).answer 0 := by
  cases hb : s.busy with
  | true => exact .inl (s.gated_busy f hb)
  | false => exact .inr ⟨s.not_busy_iff.1 hb, s.gated_idle f hb⟩

/-- Everything a host operation can do: answer, or, while idle only, write `MSG`, write `LEN`, or start. -/
theorem exec_host_cases {i : Instr} {s u : State} (hi : i.isHost = true) (h : exec i s = .next u) :
    (∃ v d, u = { s with hrdata := v, draws := d }) ∨
    s.ph = .idle ∧
      ((∃ p d, i = .hwrMsg p d ∧ u = (s.writeMsg p.toNat (dataByte d)).answer 0) ∨
        (∃ n, i = .hwrLen n ∧ u = { s with len := n, hrdata := 0 }) ∨
        (i = .hstart ∧ u = s.start.answer 0)) := by
  have gate : ∀ {f : State → State}, (.next (s.gated f) : Result) = .next u →
      (∃ v d, u = { s with hrdata := v, draws := d }) ∨ s.ph = .idle ∧ u = (f s).answer 0 := by
    intro f hg
    cases hg
    exact (s.gated_cases f).imp_left fun hb => ⟨0, s.draws, hb⟩
  have read : ∀ {v : Option Dword}, (.next (s.answerOrFree v) : Result) = .next u →
      ∃ v d, u = { s with hrdata := v, draws := d } := by
    intro v hv
    cases hv
    exact ⟨_, _, s.answerOrFree_frame v⟩
  cases i with
  | hnop | hrdStatus | hrdLen => cases h; exact .inl ⟨_, _, rfl⟩
  | hrdDigest | hrdIv | hrdK => exact .inl (read h)
  | hwrMsg p d => exact (gate h).imp_right fun ⟨hs, hu⟩ => ⟨hs, .inl ⟨p, d, rfl, hu⟩⟩
  | hwrLen n => exact (gate h).imp_right fun ⟨hs, hu⟩ => ⟨hs, .inr (.inl ⟨n, rfl, hu⟩)⟩
  | hstart => exact (gate h).imp_right fun ⟨hs, hu⟩ => ⟨hs, .inr (.inr ⟨rfl, hu⟩)⟩
  | uHinit | uPadcopy | uPadmark | uPadzero | uPadlen | uSchload | uSchexp | uCmpinit | uCmpround
  | uCmpfold => cases hi

/-- What `U_CMPFOLD` did: it always answers a next state (43 R179). -/
theorem execUCmpfold_next {s u : State} (h : execUCmpfold s = .next u) :
    u = { s with
      hash := foldHash s.hash s.vars
      blk := s.blk + 1
      t := if s.blk.toNat + 1 = s.pp.toNat / 64 then s.t else 0
      valid := if s.blk.toNat + 1 = s.pp.toNat / 64 then true else s.valid
      ph := if s.blk.toNat + 1 = s.pp.toNat / 64 then .idle else .schLoad } := by
  unfold execUCmpfold at h
  split at h <;> rename_i hlast <;> cases h
  · simp only [if_pos hlast]
  · simp only [if_neg hlast]

/-- A phase code selects a micro-operation, never a host operation (30 R89). -/
theorem decodeUop_not_isHost {c : BitVec 4} {i : Instr} (h : decode (.uop c) = .ok i) :
    i.isHost = false := by
  simp only [decode, decodeUop] at h
  split at h <;> cases h <;> rfl

/-- The micro-operation of a phase, from the decoder's answer on its code (10 R24). -/
theorem sequencerAction_of_decode {ph : Phase} {i : Instr} (h : decode (.uop ph.code) = .ok i) :
    sequencerAction ph = .run i := by
  rw [sequencerAction, h]

/-- No micro-operation touches the parameter, the message, its length, `ERR`, `ECAUSE`, the result bus or
the coming moves (10 R26, 44 R201). -/
theorem exec_microOp_frame {i : Instr} {s u : State} (hi : i.isHost = false) (h : exec i s = .next u) :
    u = { s with
      vars := u.vars, hash := u.hash, sched := u.sched, ph := u.ph, pp := u.pp, blk := u.blk, t := u.t
      valid := u.valid, pad := u.pad, draws := u.draws } := by
  cases i with
  | hnop | hwrMsg | hwrLen | hstart | hrdStatus | hrdDigest | hrdIv | hrdK | hrdLen => cases hi
  | uHinit | uCmpinit => cases h; rfl
  | uPadcopy => obtain ⟨-, rfl⟩ := execUPadcopy_next h; rfl
  | uPadmark => obtain ⟨-, rfl⟩ := execUPadmark_next h; rfl
  | uPadzero => obtain ⟨-, rfl⟩ := execUPadzero_next h; rfl
  | uPadlen => obtain ⟨-, -, rfl⟩ := execUPadlen_next h; rfl
  | uSchload => obtain ⟨-, -, rfl⟩ := execUSchload_next h; rfl
  | uSchexp => obtain ⟨-, -, rfl⟩ := execUSchexp_next h; rfl
  | uCmpround => obtain ⟨-, rfl⟩ := execUCmpround_next h; rfl
  | uCmpfold => obtain rfl := execUCmpfold_next h; rfl

end Sys2Proof.Machine
end

section
/-! The flags and `STATUS` (10 R27, R28): O12 and O13. -/

namespace Sys2Proof.Machine

/-- `BUSY` as a proposition decided (10 R28). -/
theorem State.busy_eq_decide (s : State) : s.busy = decide (s.ph ≠ .idle) := by
  rw [Bool.eq_iff_iff, s.busy_iff, decide_eq_true_iff]

/-- Bit 1 of `STATUS` (10 R27). -/
theorem State.status_valid (s : State) : s.status.getLsbD 1 = s.valid := by
  simp only [State.status, BitVec.getLsbD_append, BitVec.getLsbD_ofBool]
  simp

/-- Bit 2 of `STATUS` (10 R27). -/
theorem State.status_err (s : State) : s.status.getLsbD 2 = s.err := by
  simp only [State.status, BitVec.getLsbD_append, BitVec.getLsbD_ofBool]
  simp

/-- The bits of `STATUS` above the three flags: five zeros, `ECAUSE`, and zeros (10 R27). -/
theorem State.status_getLsbD_add_three (s : State) (i : Nat) :
    s.status.getLsbD (i + 3) =
      if i < 5 then false else if i < 9 then s.ecause.getLsbD (i - 5) else false := by
  have hlt : (i - 5 < 4) = (i < 9) := propext (by omega)
  simp only [State.status, BitVec.getLsbD_append, BitVec.getLsbD_zero,
    if_neg (show ¬ i + 3 < 1 by omega), if_neg (show ¬ i + 3 - 1 < 1 by omega),
    if_neg (show ¬ i + 3 - 1 - 1 < 1 by omega), show i + 3 - 1 - 1 - 1 = i by omega, hlt]

/-- Settles O12: bit by bit, the upper bits by their distance from bit 3. -/
theorem statusWordLayout : Obligations.StatusWordLayout := by
  intro s
  refine ⟨s.status_busy.trans s.busy_eq_decide, s.status_valid, s.status_err, fun i h3 h7 => ?_,
    fun i hi => ?_, fun i hi => ?_⟩
  · rw [← Nat.sub_add_cancel h3, s.status_getLsbD_add_three, if_pos (by omega)]
  · rw [show 8 + i = i + 5 + 3 by omega, s.status_getLsbD_add_three, if_neg (by omega), if_pos (by omega),
      Nat.add_sub_cancel]
  · rw [← Nat.sub_add_cancel (show 3 ≤ i by omega), s.status_getLsbD_add_three, if_neg (by omega),
      if_neg (by omega)]

/-- The four kinds of state the invariants of the flags leave: clear, busy, valid, rejected (10 R28). -/
theorem State.FlagsWf.kinds {s : State} (h : s.FlagsWf) :
    (s.busy = false ∧ s.valid = false ∧ s.err = false ∧ s.ecause = 0) ∨
    (s.busy = true ∧ s.valid = false ∧ s.err = false ∧ s.ecause = 0) ∨
    (s.busy = false ∧ s.valid = true ∧ s.err = false ∧ s.ecause = 0) ∨
    (s.busy = false ∧ s.valid = false ∧ s.err = true ∧ s.ecause = 1) := by
  obtain ⟨hbusy, hvalid, herr, hecause⟩ := h
  cases he : s.err with
  | true =>
    have hv : s.valid = false := by simpa [he] using hvalid
    have hb : s.busy = false := by simpa [he] using hbusy
    exact .inr (.inr (.inr ⟨hb, hv, rfl, herr.1 he⟩))
  | false =>
    have hc : s.ecause = 0 := hecause.resolve_right fun h1 => by simp [herr.2 h1] at he
    cases hb : s.busy with
    | true => exact .inr (.inl ⟨rfl, (hbusy hb).1, rfl, hc⟩)
    | false =>
      cases hv : s.valid with
      | true => exact .inr (.inr (.inl ⟨rfl, rfl, rfl, hc⟩))
      | false => exact .inl ⟨rfl, rfl, rfl, hc⟩

/-- Settles O13: the kinds of state are told apart by `STATUS`. -/
theorem statusTakesFourValues : Obligations.StatusTakesFourValues := by
  intro s h
  rw [← s.busy_iff]
  rcases h.kinds with ⟨hb, hv, he, hc⟩ | ⟨hb, hv, he, hc⟩ | ⟨hb, hv, he, hc⟩ | ⟨hb, hv, he, hc⟩ <;>
    · rw [State.status, hb, hv, he, hc]
      decide

end Sys2Proof.Machine
end

section
/-! What a step leaves alone, and what reaches the host: O49, O50 and O57. -/

namespace Sys2Proof.Machine

@[simp] theorem State.start_cfg (s : State) : s.start.cfg = s.cfg := by
  cases hl : s.inputTooLarge with
  | true => rw [s.start_tooLarge hl, s.raiseInputTooLarge_cfg]
  | false => rw [s.start_accepted hl, s.acceptStart_cfg]

/-- Settles O49: no host operation, micro-operation, wait or reset event writes the parameter. -/
theorem parameterIsNeverWritten : Obligations.ParameterIsNeverWritten := by
  intro s u h
  rcases step_next_cases h with ⟨w, rest, i, -, hd, hx⟩ | ⟨-, i, hd, hx⟩ | ⟨-, -, rfl⟩ | ⟨rest, -, rfl⟩
  · rcases exec_host_cases (decodeHost_isHost hd) hx with
      ⟨v, d, rfl⟩ | ⟨-, ⟨p, d, -, rfl⟩ | ⟨n, -, rfl⟩ | ⟨-, rfl⟩⟩ <;> simp
  · rw [exec_microOp_frame (decodeUop_not_isHost hd) hx]; rfl
  · rfl
  · rfl

/-- Settles O50: while busy a host operation only answers (44 R213), and no micro-operation writes `MSG`
or `LEN`. -/
theorem messageIsFixedDuringARun : Obligations.MessageIsFixedDuringARun := by
  intro s u hs hr h
  rcases step_next_cases h with ⟨w, rest, i, -, hd, hx⟩ | ⟨-, i, hd, hx⟩ | ⟨-, hidle, -⟩ | ⟨rest, hin, -⟩
  · rcases exec_host_cases (decodeHost_isHost hd) hx with ⟨v, d, rfl⟩ | ⟨hidle, -⟩
    · exact ⟨rfl, rfl⟩
    · exact absurd hidle hs
  · rw [exec_microOp_frame (decodeUop_not_isHost hd) hx]; exact ⟨rfl, rfl⟩
  · exact absurd hidle hs
  · simp [State.resetNext, hin] at hr

/-- What of the core an answer to the host may depend on: the parameter, the phase, `LEN`, the flags, the
count of draws, and the hash state while `VALID = 1` (10 R20, 43 R183). -/
structure State.SameToHost (s u : State) : Prop where
  cfg : u.cfg = s.cfg
  ph : u.ph = s.ph
  len : u.len = s.len
  valid : u.valid = s.valid
  err : u.err = s.err
  ecause : u.ecause = s.ecause
  draws : u.draws = s.draws
  hash : s.valid = true → u.hash = s.hash

/-- What the host finds after an operation: its answer, the flags it can read, and `LEN`. -/
def State.Visible (s u : State) : Prop :=
  u.hrdata = s.hrdata ∧ u.status = s.status ∧ u.len = s.len

section
variable {s u : State}

theorem State.SameToHost.busy (h : s.SameToHost u) : u.busy = s.busy := by
  rw [State.busy, State.busy, h.ph]

theorem State.SameToHost.status (h : s.SameToHost u) : u.status = s.status := by
  rw [State.status, State.status, h.busy, h.valid, h.err, h.ecause]

theorem State.SameToHost.inputTooLarge (h : s.SameToHost u) : u.inputTooLarge = s.inputTooLarge := by
  rw [State.inputTooLarge, State.inputTooLarge, h.cfg, h.len]

/-- The same answer given by two cores the host cannot tell apart. -/
theorem State.SameToHost.answer (h : s.SameToHost u) {v w : Dword} (hv : w = v) :
    (s.answer v).Visible (u.answer w) := ⟨hv, h.status, h.len⟩

/-- A read of the same value, or of the same draw. -/
theorem State.SameToHost.answerOrFree (h : s.SameToHost u) {v w : Option Dword} (hv : w = v) :
    (s.answerOrFree v).Visible (u.answerOrFree w) := by
  subst hv
  cases w with
  | some x => exact h.answer rfl
  | none => exact ⟨congrArg Config.freeReturn h.draws, h.status, h.len⟩

/-- A gated operation that keeps the cores alike to the host. -/
theorem State.SameToHost.gated (h : s.SameToHost u) {f : State → State}
    (hf : (f s).SameToHost (f u)) : (s.gated f).Visible (u.gated f) := by
  cases hb : s.busy with
  | true => rw [s.gated_busy f hb, u.gated_busy f (h.busy.trans hb)]; exact h.answer rfl
  | false => rw [s.gated_idle f hb, u.gated_idle f (h.busy.trans hb)]; exact hf.answer rfl

theorem State.SameToHost.writeMsg (h : s.SameToHost u) (p : Nat) (b : Byte) :
    (s.writeMsg p b).SameToHost (u.writeMsg p b) := by
  constructor <;> simp [h.cfg, h.ph, h.len, h.valid, h.err, h.ecause, h.draws]
  exact h.hash

theorem State.SameToHost.start (h : s.SameToHost u) : s.start.SameToHost u.start := by
  cases hl : s.inputTooLarge with
  | true =>
    rw [s.start_tooLarge hl, u.start_tooLarge (h.inputTooLarge.trans hl)]
    exact ⟨h.cfg, h.ph, h.len, rfl, rfl, rfl, h.draws, fun hv => by cases hv⟩
  | false =>
    rw [s.start_accepted hl, u.start_accepted (h.inputTooLarge.trans hl)]
    exact ⟨h.cfg, rfl, h.len, rfl, rfl, rfl, h.draws, fun hv => by cases hv⟩

/-- The value `HRD_DIGEST` gives: the window while `VALID = 1`, else none (44 R220). -/
theorem State.SameToHost.digestValue (h : s.SameToHost u) (j : Nat) :
    (if u.valid then (u.dig j).map zextByte else none) =
      if s.valid then (s.dig j).map zextByte else none := by
  cases hv : s.valid with
  | true => rw [h.valid, hv, State.dig, State.dig, h.hash hv]
  | false => rw [h.valid, hv]; rfl

/-- Every host operation, on two cores the host cannot tell apart. -/
theorem State.SameToHost.exec_visible (h : s.SameToHost u) {i : Instr} (hi : i.isHost = true) :
    ∃ s' u', exec i s = .next s' ∧ exec i u = .next u' ∧ s'.Visible u' := by
  cases i with
  | hnop => exact ⟨_, _, rfl, rfl, h.answer rfl⟩
  | hwrMsg p d => exact ⟨_, _, rfl, rfl, h.gated (h.writeMsg _ _)⟩
  | hwrLen n =>
    exact ⟨_, _, rfl, rfl, h.gated ⟨h.cfg, h.ph, rfl, h.valid, h.err, h.ecause, h.draws, h.hash⟩⟩
  | hstart => exact ⟨_, _, rfl, rfl, h.gated h.start⟩
  | hrdStatus => exact ⟨_, _, rfl, rfl, h.answer h.status⟩
  | hrdDigest j => exact ⟨_, _, rfl, rfl, h.answerOrFree (h.digestValue _)⟩
  | hrdIv | hrdK => exact ⟨_, _, rfl, rfl, h.answerOrFree rfl⟩
  | hrdLen => exact ⟨_, _, rfl, rfl, h.answer h.len⟩
  | uHinit | uPadcopy | uPadmark | uPadzero | uPadlen | uSchload | uSchexp | uCmpinit | uCmpround
  | uCmpfold => cases hi

end

/-- Settles O57: the two cores are the same to the host, so its operation shows it the same. -/
theorem hiddenStateNeverReachesTheHost : Obligations.HiddenStateNeverReachesTheHost := by
  intro s u s' i hi hu hash hx
  have same : s.SameToHost u := by
    constructor
    case hash => exact hash
    all_goals rw [hu]
  obtain ⟨t, u', hs, hu', hvis⟩ := same.exec_visible hi
  obtain rfl : s' = t := Host.Outcome.next.inj (hx.symm.trans hs)
  exact ⟨u', hu', hvis⟩

end Sys2Proof.Machine
end

section
/-! The invariant of the machine: it holds right after reset and every step keeps it, O46 and O47. -/

namespace Sys2Proof.Machine

/-! ### The parts of the invariant under the updates a step makes -/

theorem Memory.read_writeBytes_isSome {m : Memory} {p q : Nat} {bs : List Byte}
    (h : ∀ r < p, (m.read r).isSome = true) (hq : q < p + bs.length) :
    ((m.writeBytes p bs).read q).isSome = true := by
  rcases Nat.lt_or_ge q p with hlt | hge
  · rw [Memory.read_writeBytes_outside _ _ (.inl hlt)]
    exact h q hlt
  · obtain ⟨n, rfl⟩ := Nat.exists_eq_add_of_le hge
    have hn : n < bs.length := by omega
    rw [Memory.read_writeBytes_inside _ _ _ hn, List.getElem?_eq_getElem hn]
    rfl

theorem State.MemoriesWf.writePad {s : State} (h : s.MemoriesWf) {p : Nat} {bs : List Byte}
    (hr : p + bs.length ≤ s.padCap) : State.MemoriesWf { s with pad := s.pad.writeBytes p bs } := by
  obtain ⟨hmsg, hpad, hmsgIn, hpadIn⟩ := h
  refine ⟨hmsg, Memory.writeBytes_wf hpad p bs, hmsgIn, fun c hc => ?_⟩
  rcases Memory.mem_writeBytes hc with ⟨-, hlt⟩ | hc
  · exact Nat.lt_of_lt_of_le hlt hr
  · exact hpadIn c hc

theorem State.MemoriesWf.writeMsg {s : State} (h : s.MemoriesWf) (p : Nat) (b : Byte) :
    (s.writeMsg p b).MemoriesWf := by
  rcases Nat.lt_or_ge p s.cfg.msgCap.val with hp | hp
  · obtain ⟨hmsg, hpad, hmsgIn, hpadIn⟩ := h
    rw [s.writeMsg_inRange hp]
    refine ⟨Memory.write_wf hmsg p b, hpad, fun c hc => ?_, hpadIn⟩
    rcases Memory.mem_write hc with rfl | hc
    · exact hp
    · exact hmsgIn c hc
  · rwa [s.writeMsg_outOfRange hp]

/-- During a run no flag is set, so its end may set `VALID` and the rest of it leaves the flags alone. -/
theorem State.FlagsWf.of_running {s u : State} (h : s.FlagsWf) (hs : s.ph ≠ .idle)
    (herr : u.err = s.err) (hecause : u.ecause = s.ecause) (hvalid : u.ph = .idle ∨ u.valid = s.valid) :
    u.FlagsWf := by
  obtain ⟨hbusy, -, hcause⟩ := h
  obtain ⟨hv, he⟩ := hbusy (s.busy_iff.2 hs)
  rw [State.FlagsWf, u.busy_iff, herr, hecause]
  refine ⟨fun hu => ⟨(hvalid.resolve_left hu).trans hv, he⟩, fun _ => he, hcause⟩

theorem State.inv_of_idle {s : State} (hs : s.ph = .idle) (hm : s.MemoriesWf) (hf : s.FlagsWf) : s.Inv := by
  refine ⟨hm, hf, ⟨fun hb => absurd hs (s.busy_iff.1 hb), ?_⟩, fun h => absurd hs h⟩
  rw [hs]
  trivial

/-- A padding micro-operation: bytes are appended to `PAD` at `pp` (41 R134 to R137). -/
theorem State.Inv.padStep {s u : State} (h : s.Inv) (hs : s.ph ≠ .idle ∧ s.ph ≠ .hInit)
    {bs : List Byte} (hr : s.pp.toNat + bs.length ≤ s.padCap)
    (hu : u = { s with
      pad := s.pad.writeBytes s.pp.toNat bs, pp := s.pp + BitVec.ofNat 64 bs.length
      ph := u.ph, blk := u.blk, t := u.t, draws := u.draws })
    (hc : u.CountersWf) : u.Inv := by
  obtain ⟨h1, h2⟩ := hs
  obtain ⟨hm, hf, -, hheld⟩ := h
  refine ⟨?_, hf.of_running h1 (by rw [hu]) (by rw [hu]) (.inr (by rw [hu])), hc, fun _ _ q hq => ?_⟩
  · rw [hu]
    exact hm.writePad hr
  · have hle : u.pp.toNat ≤ s.pp.toNat + bs.length := by
      rw [hu, BitVec.toNat_add, BitVec.toNat_ofNat]
      exact (Nat.mod_le _ _).trans (Nat.add_le_add_left (Nat.mod_le _ _) _)
    rw [hu]
    exact Memory.read_writeBytes_isSome (hheld h1 h2) (hq.trans_le hle)

/-- A micro-operation on a block: neither memory nor `pp` changes (41 R139). -/
theorem State.Inv.blockStep {s u : State} (h : s.Inv) (hs : s.ph ≠ .idle ∧ s.ph ≠ .hInit)
    (hu : u = { s with
      vars := u.vars, hash := u.hash, sched := u.sched, ph := u.ph, blk := u.blk, t := u.t
      valid := u.valid, draws := u.draws })
    (hvalid : u.ph = .idle ∨ u.valid = s.valid) (hc : u.CountersWf) : u.Inv := by
  obtain ⟨h1, h2⟩ := hs
  obtain ⟨hm, hf, -, hheld⟩ := h
  refine ⟨?_, hf.of_running h1 (by rw [hu]) (by rw [hu]) hvalid, hc, fun _ _ q hq => ?_⟩
  · rw [hu]
    exact hm
  · rw [hu] at hq ⊢
    exact hheld h1 h2 q hq

/-! ### The counters, phase by phase -/

/-- The blocks cover the message, the terminator and the length field, and none is spare (41 R131). -/
theorem nblk_bounds (l : Nat) : l + 9 ≤ 64 * nblk l ∧ 64 * nblk l < l + 9 + 64 := by
  unfold nblk
  omega

section
variable {s u : State}

/-- During a run the message fits the memory, so its length is far from the end of 64 bits (00 R6). -/
theorem State.Inv.len_bounds (h : s.Inv) (hs : s.ph ≠ .idle) :
    s.len.toNat ≤ s.cfg.msgCap.val ∧ s.len.toNat < 2 ^ 61 := by
  obtain ⟨-, -, ⟨hlen, -⟩, -⟩ := h
  have hcap := hlen (s.busy_iff.2 hs)
  exact ⟨hcap, hcap.trans_lt s.cfg.msgCap.isLt⟩

theorem State.Inv.countersWf (h : s.Inv) : s.CountersWf := by
  obtain ⟨-, -, hc, -⟩ := h
  exact hc

/-- The fill phases (41 R135, R136): after a byte that leaves `pp` past the message and room for the
length field, `U_PADLEN` follows exactly where the length field ends the last block. -/
theorem State.countersWf_fillPhase {p : Nat} (hpp : s.pp.toNat = p) (hph : s.ph = fillPhase p)
    (hcap : s.len.toNat ≤ s.cfg.msgCap.val) (h1 : s.len.toNat < p) (h2 : p + 8 ≤ 64 * nblk s.len.toNat) :
    s.CountersWf := by
  refine ⟨fun _ => hcap, ?_⟩
  have hn := nblk_bounds s.len.toNat
  by_cases h56 : p % 64 = 56
  · rw [hph, fillPhase, if_pos h56]
    show s.pp.toNat + 8 = 64 * nblk s.len.toNat
    omega
  · rw [hph, fillPhase, if_neg h56]
    show s.len.toNat < s.pp.toNat ∧ s.pp.toNat + 8 < 64 * nblk s.len.toNat
    omega

/-! ### The micro-operations -/

theorem execUHinit_keeps_inv (h : s.Inv) (hp : s.ph = .hInit) (hx : execUHinit s = .next u) : u.Inv := by
  have hs : s.ph ≠ .idle := by rw [hp]; decide
  have hlen := (h.len_bounds hs).1
  obtain ⟨hm, hf, -, -⟩ := h
  cases hx
  refine ⟨hm, hf.of_running hs rfl rfl (.inr rfl), ⟨fun _ => hlen, ?_⟩,
    fun _ _ q hq => absurd hq (Nat.not_lt_zero q)⟩
  by_cases h0 : s.len = 0
  · simp only [if_pos h0]
    exact h0.symm
  · simp only [if_neg h0]
    bv_omega

theorem execUPadcopy_keeps_inv (h : s.Inv) (hp : s.ph = .padCopy) (hx : execUPadcopy s = .next u) :
    u.Inv := by
  have hs : s.ph ≠ .idle ∧ s.ph ≠ .hInit := by rw [hp]; decide
  obtain ⟨hlen, hlt⟩ := h.len_bounds hs.1
  obtain ⟨-, hat⟩ := h.countersWf
  have hpp : s.pp.toNat < s.len.toNat := by rwa [hp] at hat
  obtain ⟨hr, rfl⟩ := execUPadcopy_next hx
  have hcap : s.pp.toNat + 1 ≤ s.padCap := by have := s.msgCap_lt_padCap; omega
  refine h.padStep (bs := [_]) hs hcap rfl ⟨fun _ => hlen, ?_⟩
  by_cases hc : s.pp.toNat + 1 = s.len.toNat
  · simp only [if_pos hc]
    bv_omega
  · simp only [if_neg hc]
    bv_omega

theorem execUPadmark_keeps_inv (h : s.Inv) (hp : s.ph = .padMark) (hx : execUPadmark s = .next u) :
    u.Inv := by
  have hs : s.ph ≠ .idle ∧ s.ph ≠ .hInit := by rw [hp]; decide
  obtain ⟨hlen, hlt⟩ := h.len_bounds hs.1
  obtain ⟨-, hat⟩ := h.countersWf
  have hpp : s.pp = s.len := by rwa [hp] at hat
  have hn := nblk_bounds s.len.toNat
  obtain ⟨hr, rfl⟩ := execUPadmark_next hx
  refine h.padStep (bs := [0x80]) hs hr rfl
    (State.countersWf_fillPhase ?_ rfl hlen ?_ ?_)
  · bv_omega
  · bv_omega
  · simp only [hpp]
    omega

theorem execUPadzero_keeps_inv (h : s.Inv) (hp : s.ph = .padZero) (hx : execUPadzero s = .next u) :
    u.Inv := by
  have hs : s.ph ≠ .idle ∧ s.ph ≠ .hInit := by rw [hp]; decide
  obtain ⟨hlen, hlt⟩ := h.len_bounds hs.1
  obtain ⟨-, hat⟩ := h.countersWf
  have hpp : s.len.toNat < s.pp.toNat ∧ s.pp.toNat + 8 < 64 * nblk s.len.toNat := by rwa [hp] at hat
  have hn := nblk_bounds s.len.toNat
  obtain ⟨hr, rfl⟩ := execUPadzero_next hx
  refine h.padStep (bs := [0x00]) hs hr rfl
    (State.countersWf_fillPhase ?_ rfl hlen ?_ ?_)
  · bv_omega
  · simp only
    omega
  · simp only
    omega

theorem execUPadlen_keeps_inv (h : s.Inv) (hp : s.ph = .padLen) (hx : execUPadlen s = .next u) : u.Inv := by
  have hs : s.ph ≠ .idle ∧ s.ph ≠ .hInit := by rw [hp]; decide
  obtain ⟨hlen, hlt⟩ := h.len_bounds hs.1
  obtain ⟨-, hat⟩ := h.countersWf
  have hpp : s.pp.toNat + 8 = 64 * nblk s.len.toNat := by rwa [hp] at hat
  have hn := nblk_bounds s.len.toNat
  obtain ⟨-, hr, rfl⟩ := execUPadlen_next hx
  have hend : (s.pp + 8).toNat = 64 * nblk s.len.toNat := by bv_omega
  have hblk : 0 < nblk s.len.toNat := by omega
  exact h.padStep (bs := be64Bytes _) hs hr rfl
    ⟨fun _ => hlen, hend, hblk, Nat.zero_le 15⟩

theorem execUSchload_keeps_inv (h : s.Inv) (hp : s.ph = .schLoad) (hx : execUSchload s = .next u) :
    u.Inv := by
  have hs : s.ph ≠ .idle ∧ s.ph ≠ .hInit := by rw [hp]; decide
  obtain ⟨hlen, hat⟩ := h.countersWf
  rw [hp] at hat
  obtain ⟨hpp, hblk, ht⟩ := hat
  obtain ⟨-, -, rfl⟩ := execUSchload_next hx
  refine h.blockStep hs rfl (.inr rfl) ⟨fun _ => hlen (s.busy_iff.2 hs.1), ?_⟩
  by_cases hc : s.t.toNat + 1 = 16
  · simp only [if_pos hc]
    exact ⟨hpp, hblk, by bv_omega, by bv_omega⟩
  · simp only [if_neg hc]
    exact ⟨hpp, hblk, by bv_omega⟩

theorem execUSchexp_keeps_inv (h : s.Inv) (hp : s.ph = .schExp) (hx : execUSchexp s = .next u) :
    u.Inv := by
  have hs : s.ph ≠ .idle ∧ s.ph ≠ .hInit := by rw [hp]; decide
  obtain ⟨hlen, hat⟩ := h.countersWf
  rw [hp] at hat
  obtain ⟨hpp, hblk, h16, ht⟩ := hat
  obtain ⟨-, -, rfl⟩ := execUSchexp_next hx
  refine h.blockStep hs rfl (.inr rfl) ⟨fun _ => hlen (s.busy_iff.2 hs.1), ?_⟩
  by_cases hc : s.t.toNat + 1 = 64
  · simp only [if_pos hc]
    exact ⟨hpp, hblk, by bv_omega⟩
  · simp only [if_neg hc]
    exact ⟨hpp, hblk, by bv_omega, by bv_omega⟩

theorem execUCmpinit_keeps_inv (h : s.Inv) (hp : s.ph = .cmpInit) (hx : execUCmpinit s = .next u) :
    u.Inv := by
  have hs : s.ph ≠ .idle ∧ s.ph ≠ .hInit := by rw [hp]; decide
  obtain ⟨hlen, hat⟩ := h.countersWf
  rw [hp] at hat
  obtain ⟨hpp, hblk, -⟩ := hat
  cases hx
  exact h.blockStep hs rfl (.inr rfl)
    ⟨fun _ => hlen (s.busy_iff.2 hs.1), hpp, hblk, Nat.zero_le 63⟩

theorem execUCmpround_keeps_inv (h : s.Inv) (hp : s.ph = .cmpRound) (hx : execUCmpround s = .next u) :
    u.Inv := by
  have hs : s.ph ≠ .idle ∧ s.ph ≠ .hInit := by rw [hp]; decide
  obtain ⟨hlen, hat⟩ := h.countersWf
  rw [hp] at hat
  obtain ⟨hpp, hblk, -⟩ := hat
  obtain ⟨ht, rfl⟩ := execUCmpround_next hx
  refine h.blockStep hs rfl (.inr rfl) ⟨fun _ => hlen (s.busy_iff.2 hs.1), ?_⟩
  by_cases hc : s.t.toNat + 1 = 64
  · simp only [if_pos hc]
    exact ⟨hpp, hblk, by bv_omega⟩
  · simp only [if_neg hc]
    exact ⟨hpp, hblk, by bv_omega⟩

theorem execUCmpfold_keeps_inv (h : s.Inv) (hp : s.ph = .cmpFold) (hx : execUCmpfold s = .next u) :
    u.Inv := by
  have hs : s.ph ≠ .idle ∧ s.ph ≠ .hInit := by rw [hp]; decide
  obtain ⟨hlen, hat⟩ := h.countersWf
  rw [hp] at hat
  obtain ⟨hpp, hblk, -⟩ := hat
  obtain rfl := execUCmpfold_next hx
  by_cases hc : s.blk.toNat + 1 = s.pp.toNat / 64
  · simp only [if_pos hc]
    exact h.blockStep hs rfl (.inl rfl) ⟨nofun, trivial⟩
  · simp only [if_neg hc]
    have hnext : (s.blk + 1).toNat < nblk s.len.toNat := by bv_omega
    exact h.blockStep hs rfl (.inr rfl)
      ⟨fun _ => hlen (s.busy_iff.2 hs.1), hpp, hnext, Nat.zero_le 15⟩

/-- The sequencer's step of each phase. -/
theorem exec_microOp_keeps_inv {i : Instr} (h : s.Inv) (hd : decode (.uop s.ph.code) = .ok i)
    (hx : exec i s = .next u) : u.Inv := by
  have hi := (sequencerAction_eq s.ph).symm.trans (sequencerAction_of_decode hd)
  cases hp : s.ph <;> rw [hp] at hi <;> cases hi
  case hInit => exact execUHinit_keeps_inv h hp hx
  case padCopy => exact execUPadcopy_keeps_inv h hp hx
  case padMark => exact execUPadmark_keeps_inv h hp hx
  case padZero => exact execUPadzero_keeps_inv h hp hx
  case padLen => exact execUPadlen_keeps_inv h hp hx
  case schLoad => exact execUSchload_keeps_inv h hp hx
  case schExp => exact execUSchexp_keeps_inv h hp hx
  case cmpInit => exact execUCmpinit_keeps_inv h hp hx
  case cmpRound => exact execUCmpround_keeps_inv h hp hx
  case cmpFold => exact execUCmpfold_keeps_inv h hp hx

/-! ### The host operations, the reset event and the step -/

theorem State.flagsWf_of_clear (hv : s.valid = false) (he : s.err = false) (hc : s.ecause = 0) :
    s.FlagsWf := by
  rw [State.FlagsWf, hv, he, hc]
  exact ⟨fun _ => ⟨rfl, rfl⟩, fun _ => rfl, by decide, .inl rfl⟩

/-- Idle, no flag set and no byte held: right after reset, and after a reset event (10 R32, 70 R270). -/
theorem State.inv_of_clear (hs : s.ph = .idle) (hv : s.valid = false) (he : s.err = false)
    (hc : s.ecause = 0) (hmsg : s.msg = []) (hpad : s.pad = []) : s.Inv := by
  refine State.inv_of_idle hs ?_ (State.flagsWf_of_clear hv he hc)
  rw [State.MemoriesWf, hmsg, hpad]
  exact ⟨Memory.wf_nil, Memory.wf_nil, nofun, nofun⟩

/-- The rejected start (60 R244): nothing but the flags changes, and the core stays idle. -/
theorem State.raiseInputTooLarge_inv (h : s.Inv) (hs : s.ph = .idle) : s.raiseInputTooLarge.Inv := by
  obtain ⟨hm, -, -, -⟩ := h
  have hidle : s.raiseInputTooLarge.ph = .idle := hs
  exact State.inv_of_idle hidle hm
    ⟨fun hb => absurd hidle ((State.busy_iff _).1 hb), nofun, ⟨fun _ => rfl, fun _ => rfl⟩, .inr rfl⟩

/-- The accepted start (44 R218): the length was tested, and `U_HINIT` asks nothing of the counters. -/
theorem State.acceptStart_inv (h : s.Inv) (hfit : s.inputTooLarge = false) : s.acceptStart.Inv := by
  obtain ⟨hm, -, -, -⟩ := h
  have hlen : s.len.toNat ≤ s.cfg.msgCap.val := by
    simp only [State.inputTooLarge, Bool.or_eq_false_iff, decide_eq_false_iff_not] at hfit
    omega
  exact ⟨hm, State.flagsWf_of_clear rfl rfl rfl, ⟨fun _ => hlen, trivial⟩, fun _ hp => absurd rfl hp⟩

theorem State.Inv.answer (h : s.Inv) (v : Dword) : (s.answer v).Inv := h

theorem exec_host_keeps_inv {i : Instr} (h : s.Inv) (hi : i.isHost = true) (hx : exec i s = .next u) :
    u.Inv := by
  have ⟨hm, hf, _, _⟩ := h
  rcases exec_host_cases hi hx with ⟨v, d, rfl⟩ | ⟨hs, ⟨p, d, -, rfl⟩ | ⟨n, -, rfl⟩ | ⟨-, rfl⟩⟩
  · exact h
  · refine State.inv_of_idle (by simpa using hs) (hm.writeMsg _ _) ?_
    simpa [State.FlagsWf, State.busy] using hf
  · exact State.inv_of_idle hs hm hf
  · cases hl : s.inputTooLarge with
    | true => rw [s.start_tooLarge hl]; exact (State.raiseInputTooLarge_inv h hs).answer 0
    | false => rw [s.start_accepted hl]; exact (State.acceptStart_inv h hl).answer 0

end

/-- Settles O46: idle, clear and with no byte held. -/
theorem resetMeetsTheInvariant : Obligations.ResetMeetsTheInvariant :=
  State.inv_of_clear rfl rfl rfl rfl rfl rfl

/-- Settles O47: a host operation, the micro-operation of the phase, a wait and a reset event each keep it. -/
theorem stepKeepsTheInvariant : Obligations.StepKeepsTheInvariant := by
  intro s u h hstep
  have hadv : s.advance.Inv := h
  rcases step_next_cases hstep with ⟨w, rest, i, -, hd, hx⟩ | ⟨-, i, hd, hx⟩ | ⟨-, -, rfl⟩ | ⟨rest, -, rfl⟩
  · exact exec_host_keeps_inv hadv (decodeHost_isHost hd) hx
  · exact exec_microOp_keeps_inv hadv hd hx
  · exact hadv
  · exact State.inv_of_clear rfl rfl rfl rfl rfl rfl

end Sys2Proof.Machine
end

section
/-! The phase codes and the state right after reset: O2 and O9. -/

namespace Sys2Proof.Machine

/-- The phase codes without a phase are rejected by name (30 R92). -/
theorem decodeUop_reserved : ∀ c : BitVec 4, 11 ≤ c → decode (.uop c) = .error (.reservedPhase c) := by
  decide

/-- Settles O2: the table row by row, and the reserved codes. -/
theorem phaseCodesSelectMicroOperations : Obligations.PhaseCodesSelectMicroOperations :=
  ⟨⟨rfl, rfl⟩, ⟨rfl, rfl⟩, ⟨rfl, rfl⟩, ⟨rfl, rfl⟩, ⟨rfl, rfl⟩, ⟨rfl, rfl⟩, ⟨rfl, rfl⟩, ⟨rfl, rfl⟩, ⟨rfl, rfl⟩,
    ⟨rfl, rfl⟩, ⟨rfl, rfl⟩, decodeUop_reserved⟩

/-- The status word right after reset (70 R273). -/
theorem State.reset_status : State.reset.status = 0 := rfl

/-- Settles O9: each field by its reset value, and the two reads by their meaning on it. -/
theorem resetStateIsIdleAndClear : Obligations.ResetStateIsIdleAndClear := by
  refine ⟨rfl, rfl, rfl, rfl, rfl, State.reset_status, fun a => ⟨Memory.read_nil a, Memory.read_nil a⟩, ?_, rfl⟩
  show Host.Outcome.next (State.reset.answer State.reset.status) = _
  rw [State.reset_status]
  rfl

end Sys2Proof.Machine
end

section
/-! The reads the spec leaves unspecified: O23. -/

namespace Sys2Proof.Machine

/-! ### Past the end of the window and the tables there is nothing to read: no index is reduced -/

/-- The digest window has 32 bytes (20 R54). -/
theorem State.dig_outOfRange (s : State) {j : Nat} (h : 32 ≤ j) : s.dig j = none := by
  have hword : s.hash[j / 4]? = none := Vector.getElem?_eq_none (by omega)
  rw [State.dig, hword]

theorem Rom.ivAt_outOfRange {k : Nat} (h : 8 ≤ k) : Rom.ivAt k = none := Vector.getElem?_eq_none h

theorem Rom.kAt_outOfRange {i : Nat} (h : 64 ≤ i) : Rom.kAt i = none := Vector.getElem?_eq_none h

/-! ### The reads by index, and what they do where there is nothing to read -/

/-- Log entry 2: a read without a value answers the free value of its draw. -/
theorem State.answerOrFree_none (s : State) : s.answerOrFree none = s.answerFree := rfl

theorem exec_hrdDigest (j : Dword) (s : State) : exec (.hrdDigest j) s =
    .next (s.answerOrFree (if s.valid then (s.dig j.toNat).map zextByte else none)) := rfl

theorem exec_hrdIv (k : Dword) (s : State) :
    exec (.hrdIv k) s = .next (s.answerOrFree ((Rom.ivAt k.toNat).map zextWord)) := rfl

theorem exec_hrdK (i : Dword) (s : State) :
    exec (.hrdK i) s = .next (s.answerOrFree ((Rom.kAt i.toNat).map zextWord)) := rfl

/-- 44 R220: without a valid digest, and past the window with or without one. -/
theorem exec_hrdDigest_unspecified (s : State) {j : Dword} (h : s.valid = false ∨ 32 ≤ j.toNat) :
    exec (.hrdDigest j) s = .next s.answerFree := by
  have hnone : (if s.valid then (s.dig j.toNat).map zextByte else none) = none := by
    rcases h with hinvalid | hj
    · simp [hinvalid]
    · simp [s.dig_outOfRange hj]
  rw [exec_hrdDigest, hnone, s.answerOrFree_none]

theorem exec_hrdIv_unspecified (s : State) {k : Dword} (h : 8 ≤ k.toNat) :
    exec (.hrdIv k) s = .next s.answerFree := by
  rw [exec_hrdIv, Rom.ivAt_outOfRange h, Option.map_none, s.answerOrFree_none]

theorem exec_hrdK_unspecified (s : State) {i : Dword} (h : 64 ≤ i.toNat) :
    exec (.hrdK i) s = .next s.answerFree := by
  rw [exec_hrdK, Rom.kAt_outOfRange h, Option.map_none, s.answerOrFree_none]

/-- Settles O23: each read finds no value there, and so answers by a draw. -/
theorem unspecifiedReadsAnswerAFreeValue : Obligations.UnspecifiedReadsAnswerAFreeValue :=
  fun s _ => ⟨exec_hrdDigest_unspecified s, exec_hrdIv_unspecified s, exec_hrdK_unspecified s⟩

end Sys2Proof.Machine
end

section
/-! The encoder, the decoder and the step the host's word selects: O3, O1, O5 and O6. -/

namespace Sys2Proof

/-! ### The decoder against the encoder -/

theorem decode_encode (i : Instr) : decode (encode i) = .ok i := by
  cases i <;> rfl

/-- The host codes without a row are rejected by name (30 R91, R93). -/
theorem decodeHost_reserved {w : HostWord} (h : 9 ≤ w.hop) :
    decode (.host w) = .error (.reservedHop w.hop) := by
  obtain ⟨hop, a, d⟩ := w
  replace h : 9 ≤ hop := h
  simp only [decode, decodeHost]
  split
  case h_10 => rfl
  all_goals exact absurd h (by decide)

/-- The decoder does not look at an ignored bus (30 R88, R94). -/
theorem decode_canonical (p : Packet) : decode p.canonical = decode p := by
  cases p with
  | uop c => rfl
  | host w =>
    obtain ⟨hop, a, d⟩ := w
    simp only [decode, decodeHost, Packet.canonical]
    split <;> rfl

/-- What decodes has a code with a row, and is the encoding but for the ignored buses (30 R87, R89). -/
theorem wellFormed_canonical_of_decode {p : Packet} {i : Instr} (h : decode p = .ok i) :
    p.wellFormed = true ∧ p.canonical = encode i := by
  cases p with
  | uop c =>
    simp only [decode, decodeUop] at h
    split at h <;> cases h <;> exact ⟨rfl, rfl⟩
  | host w =>
    obtain ⟨hop, a, d⟩ := w
    simp only [decode, decodeHost] at h
    split at h <;> cases h <;> exact ⟨rfl, rfl⟩

end Sys2Proof

namespace Sys2Proof.Machine

/-- Settles O3: the decoder reads the canonical packet as it reads the packet, and so inverts the encoder. -/
theorem decodeInvertsEncode : Obligations.DecodeInvertsEncode := by
  intro p i
  refine ⟨wellFormed_canonical_of_decode, fun ⟨_, hcanon⟩ => ?_⟩
  rw [← decode_canonical, hcanon, decode_encode]

/-- Settles O1: the table row by row, and the reserved codes. -/
theorem hostCodesDecodeAsTabulated : Obligations.HostCodesDecodeAsTabulated :=
  ⟨fun _ _ => ⟨rfl, rfl, rfl, rfl, rfl, rfl, rfl, rfl, rfl⟩, fun _ => decodeHost_reserved⟩

/-! ### A host step -/

section
variable {s : State} {w : HostWord} {rest : List Input}

theorem State.nextAction_host_run {i : Instr} (hs : s.inputs = .host w :: rest)
    (hd : decode (.host w) = .ok i) : s.nextAction = .run i := by
  simp only [State.nextAction, hs, hd]

theorem State.nextAction_host_refuse {e : DecodeError} (hs : s.inputs = .host w :: rest)
    (hd : decode (.host w) = .error e) : s.nextAction = .refuse w.hop := by
  simp only [State.nextAction, hs, hd]

theorem State.advance_of_inputs {x : Input} (hs : s.inputs = x :: rest) :
    s.advance = { s with inputs := rest } := by
  rw [State.advance, hs, List.tail_cons]

end

/-- Settles O5: the decoder rejects the code, so the step's action is the refusal. -/
theorem reservedHostCodeIsRefused : Obligations.ReservedHostCodeIsRefused := by
  intro s w rest hs hw
  rw [step, State.nextAction_host_refuse hs (decodeHost_reserved hw)]

/-- Settles O6: the step's action is the decoded operation, and the input is the first of the list. -/
theorem hostStepRunsDecodedInstruction : Obligations.HostStepRunsDecodedInstruction := by
  intro s w rest i hs hd
  rw [step, State.nextAction_host_run hs hd, ← State.advance_of_inputs hs]

end Sys2Proof.Machine
end

section
/-! The words of the constant ROM (40 R111 to R114): O41 and O42. -/

namespace Sys2Proof.Machine

/-! ### The primes beside the words -/

/-- The model's trial division up to the square root finds the primes (40 R111). -/
theorem isPrime_iff {m : Nat} : isPrime m = true ↔ m.Prime := by
  have strict {d : Nat} (h2 : 2 ≤ d) (hd : d * d ≤ m) : d < m := by nlinarith
  simp only [isPrime, Bool.and_eq_true, decide_eq_true_eq, List.all_eq_true, List.mem_range,
    Bool.not_eq_true', Bool.and_eq_false_iff, decide_eq_false_iff_not, Nat.prime_def_le_sqrt,
    Nat.le_sqrt, Nat.dvd_iff_mod_eq_zero]
  refine and_congr_right fun _ => ⟨fun h d h2 hd => ?_, fun h d _ => ?_⟩
  · simpa [h2, hd] using h d (strict h2 hd)
  · by_cases hd : 2 ≤ d ∧ d * d ≤ m
    · exact .inr (h d hd.1 hd.2)
    · exact .inl (not_and_or.1 hd)

/-- The entries of a filtered range are the numbers of the predicate, in order. -/
theorem nth_eq_getElem_filter_range {p : Nat → Bool} {n i : Nat}
    (hi : i < ((List.range n).filter p).length) :
    Nat.nth (p · = true) i = ((List.range n).filter p)[i] := by
  induction n with
  | zero => simp at hi
  | succ n ih =>
    cases hp : p n with
    | false =>
      simp only [List.range_succ, List.filter_append, List.filter_singleton, hp, cond_false,
        List.append_nil] at hi ⊢
      exact ih hi
    | true =>
      simp only [List.range_succ, List.filter_append, List.filter_singleton, hp, cond_true,
        List.length_append, List.length_singleton] at hi ⊢
      obtain hlt | rfl := Nat.lt_succ_iff_lt_or_eq.1 hi
      · rw [List.getElem_append_left hlt, ih hlt]
      · have hcount : ((List.range n).filter p).length = Nat.count (p · = true) n := by
          simp [Nat.count, List.countP_eq_length_filter]
        rw [List.getElem_concat_length rfl, hcount, Nat.nth_count hp]

/-- A table that lists the primes below a bound has the `i`-th prime in its row `i`. -/
theorem nth_prime_eq_row {rows : List (Nat × Word)} {n i : Nat}
    (h : rows.map Prod.fst = (List.range n).filter isPrime) (hi : i < rows.length) :
    Nat.nth Nat.Prime i = rows[i].1 := by
  have hlen : i < ((List.range n).filter isPrime).length := by rw [← h]; simpa using hi
  have hrow := nth_eq_getElem_filter_range hlen
  simp only [isPrime_iff, ← h, List.getElem_map] at hrow
  exact hrow

/-! ### Fractions of exact roots in integers -/

/-- 40 R112, the second form: the whole part of `x` is a multiple of 2^32 that the remainder drops. -/
theorem fracBits_iff {x : ℝ} {n : Nat} (hx : 0 ≤ x) :
    FracBits x n ↔ n = ⌊x * 2 ^ 32⌋₊ % 2 ^ 32 := by
  have whole : ⌊x * 2 ^ 32⌋₊ / 2 ^ 32 = ⌊x⌋₊ := mod_cast Nat.mul_cast_floor_div_cancel (by norm_num) x
  have split : Int.fract x * 2 ^ 32 = x * 2 ^ 32 - (⌊x⌋₊ * 2 ^ 32 : ℕ) := by
    rw [← Int.self_sub_floor, sub_mul, ← natCast_floor_eq_intCast_floor hx]
    norm_cast
  rw [FracBits, split, Nat.floor_sub_natCast, Nat.mod_eq_sub_div_mul, whole]

/-- The integer root is the real root, truncated. -/
theorem floor_eq_nthRoot {x : ℝ} {n a : Nat} (hx : 0 ≤ x) (hn : n ≠ 0) (h : x ^ n = a) :
    ⌊x⌋₊ = Nat.nthRoot n a := by
  refine eq_of_forall_le_iff fun m => ?_
  rw [Nat.le_floor_iff hx, Nat.le_nthRoot_iff hn, ← pow_le_pow_iff_left₀ m.cast_nonneg hx hn, h]
  norm_cast

/-- `frac_bits` of the exact `n`-th root of `p`, in integers (40 R113, R114). -/
theorem fracBits_root_iff {x : ℝ} {n p m : Nat} (hx : 0 ≤ x) (hn : n ≠ 0) (h : x ^ n = p) :
    FracBits x m ↔ m = Nat.nthRoot n (p * 2 ^ (32 * n)) % 2 ^ 32 := by
  have scaled : (x * 2 ^ 32) ^ n = (p * 2 ^ (32 * n) : ℕ) := by
    push_cast
    rw [mul_pow, h, pow_mul]
  rw [fracBits_iff hx, floor_eq_nthRoot (by positivity) hn scaled]

theorem nthRoot_two_eq_sqrt (a : Nat) : Nat.nthRoot 2 a = Nat.sqrt a :=
  Nat.eq_sqrt'.2 ⟨Nat.pow_nthRoot_le (.inl two_ne_zero), Nat.lt_pow_nthRoot_add_one two_ne_zero a⟩

/-! ### The tables, row by row -/

/-- In a table of the primes in order whose rows hold the integer `d`-th root of their prime, word `i` is
the one of the `i`-th prime. -/
theorem row_word_eq_root {rows : List (Nat × Word)} {n d i : Nat}
    (hprimes : rows.map Prod.fst = (List.range n).filter isPrime)
    (hroots : ∀ row ∈ rows, row.2.toNat = Nat.nthRoot d (row.1 * 2 ^ (32 * d)) % 2 ^ 32)
    (hi : i < rows.length) :
    rows[i].2.toNat = Nat.nthRoot d (Nat.nth Nat.Prime i * 2 ^ (32 * d)) % 2 ^ 32 := by
  rw [nth_prime_eq_row hprimes hi, hroots _ (List.getElem_mem hi)]

theorem Rom.ivRows_root : ∀ row ∈ Rom.ivRows,
    row.2.toNat = Nat.nthRoot 2 (row.1 * 2 ^ 64) % 2 ^ 32 := by decide +kernel

theorem Rom.kRows_root : ∀ row ∈ Rom.kRows,
    row.2.toNat = Nat.nthRoot 3 (row.1 * 2 ^ 96) % 2 ^ 32 := by decide +kernel

theorem Rom.iv_eq_row {k : Nat} (h : k < 8) : Rom.iv[k] = (Rom.ivRows[k]'h).2 := List.getElem_map Prod.snd

theorem Rom.k_eq_row {i : Nat} (h : i < 64) : Rom.k[i] = (Rom.kRows[i]'h).2 := List.getElem_map Prod.snd

theorem Rom.iv_toNat {k : Nat} (h : k < 8) :
    (Rom.iv[k]).toNat = Nat.nthRoot 2 (Nat.nth Nat.Prime k * 2 ^ 64) % 2 ^ 32 := by
  rw [Rom.iv_eq_row h]
  exact row_word_eq_root Rom.ivRows_primes Rom.ivRows_root h

theorem Rom.k_toNat {i : Nat} (h : i < 64) :
    (Rom.k[i]).toNat = Nat.nthRoot 3 (Nat.nth Nat.Prime i * 2 ^ 96) % 2 ^ 32 := by
  rw [Rom.k_eq_row h]
  exact row_word_eq_root Rom.kRows_primes Rom.kRows_root h

/-- Settles O41: the whole part drops out of the remainder, and each word is the integer square root's. -/
theorem romHoldsSquareRootFractions : Obligations.RomHoldsSquareRootFractions := by
  refine ⟨fun x n hx h => ?_, fun k hk => ⟨?_, ?_⟩⟩
  · have hn := (fracBits_iff hx).1 h
    exact ⟨hn, hn ▸ Nat.mod_lt _ (by norm_num)⟩
  · exact (fracBits_root_iff (Real.sqrt_nonneg _) two_ne_zero (Real.sq_sqrt (Nat.cast_nonneg _))).2
      (Rom.iv_toNat hk)
  · rw [Rom.iv_toNat hk, nthRoot_two_eq_sqrt]

/-- Settles O42: each word is the integer cube root's. -/
theorem romHoldsCubeRootFractions : Obligations.RomHoldsCubeRootFractions := by
  intro i hi
  have cube : ((Nat.nth Nat.Prime i : ℝ) ^ ((1 : ℝ) / 3)) ^ 3 = Nat.nth Nat.Prime i := by
    rw [one_div]
    exact Real.rpow_inv_natCast_pow (Nat.cast_nonneg _) three_ne_zero
  have below := Nat.pow_nthRoot_le (n := 3) (a := Nat.nth Nat.Prime i * 2 ^ 96) (.inl three_ne_zero)
  have above := Nat.lt_pow_nthRoot_add_one three_ne_zero (Nat.nth Nat.Prime i * 2 ^ 96)
  rw [pow_three'] at below above
  exact ⟨(fracBits_root_iff (by positivity) three_ne_zero cube).2 (Rom.k_toNat hi),
    _, below, above, Rom.k_toNat hi⟩

end Sys2Proof.Machine
end

section
/-! Padding as a function (41 R130 to R133): O43 and O44. -/

namespace Sys2Proof.Machine

/-! ### The big-endian bytes of a 64-bit value -/

/-- A byte of a 64-bit value, as a quotient (30 R83). -/
theorem extractByte_ofNat (v : Nat) {k : Nat} (hk : k ≤ 56) :
    (BitVec.ofNat 64 v).extractLsb' k 8 = BitVec.ofNat 8 (v / 2 ^ k) := by
  refine BitVec.eq_of_getLsbD_eq fun i hi => ?_
  have hbit : k + i < 64 := by omega
  simp only [BitVec.getLsbD_extractLsb', BitVec.getLsbD_ofNat, Nat.testBit_div_two_pow, hi, hbit,
    Nat.add_comm i k, decide_true, Bool.true_and]

/-- Byte `n` of a 64-bit value, most significant first (30 R83). -/
theorem be64Bytes_getElem? (v : Nat) {n : Nat} (hn : n < 8) :
    (be64Bytes (BitVec.ofNat 64 v))[n]? = some (BitVec.ofNat 8 (v / 2 ^ (56 - 8 * n))) := by
  rw [← extractByte_ofNat v (by omega)]
  match n, hn with
  | 0, _ | 1, _ | 2, _ | 3, _ | 4, _ | 5, _ | 6, _ | 7, _ => rfl

/-- The eight bytes determine the value: each is its quotient modulo 256. -/
theorem be64Bytes_ofNat_injective {v w : Nat} (hv : v < 2 ^ 64) (hw : w < 2 ^ 64)
    (h : be64Bytes (BitVec.ofNat 64 v) = be64Bytes (BitVec.ofNat 64 w)) : v = w := by
  have byte {n : Nat} (hn : n < 8) : v / 2 ^ (56 - 8 * n) % 2 ^ 8 = w / 2 ^ (56 - 8 * n) % 2 ^ 8 := by
    have hbyte := congrArg (·[n]?) h
    simp only [be64Bytes_getElem? _ hn, Option.some.injEq] at hbyte
    simpa only [BitVec.toNat_ofNat] using congrArg BitVec.toNat hbyte
  have h0 := byte (n := 0) (by decide)
  have h1 := byte (n := 1) (by decide)
  have h2 := byte (n := 2) (by decide)
  have h3 := byte (n := 3) (by decide)
  have h4 := byte (n := 4) (by decide)
  have h5 := byte (n := 5) (by decide)
  have h6 := byte (n := 6) (by decide)
  have h7 := byte (n := 7) (by decide)
  omega

/-! ### The parts of a padded message -/

/-- 41 R130, R133: where the bit length fits its field, and only there, the four parts in order. -/
theorem padMessage_eq_some {m p : List Byte} : padMessage m = some p ↔
    8 * m.length < 2 ^ 64 ∧ m ++ [0x80] ++ List.replicate (zfill m.length) 0x00 ++
      be64Bytes (BitVec.ofNat 64 (8 * m.length)) = p := by
  rw [padMessage, Option.ite_none_right_eq_some, Option.some.injEq]

section
variable {m p : List Byte} (h : padMessage m = some p)
include h

theorem padMessage_length_parts : p.length = m.length + 1 + zfill m.length + 8 := by
  obtain ⟨-, rfl⟩ := padMessage_eq_some.1 h
  simp [be64Bytes_length]
  omega

theorem padMessage_length : p.length = 64 * nblk m.length :=
  (padMessage_length_parts h).trans (length_add_zfill _)

theorem padMessage_message {q : Nat} (hq : q < m.length) : p[q]? = m[q]? := by
  obtain ⟨-, rfl⟩ := padMessage_eq_some.1 h
  simp only [List.append_assoc]
  exact List.getElem?_append_left hq

theorem padMessage_mark : p[m.length]? = some 0x80 := by
  obtain ⟨-, rfl⟩ := padMessage_eq_some.1 h
  simp

theorem padMessage_zero {q : Nat} (h1 : m.length < q) (h2 : q ≤ m.length + zfill m.length) :
    p[q]? = some 0x00 := by
  obtain ⟨-, rfl⟩ := padMessage_eq_some.1 h
  have hz : q - (m.length + 1) < zfill m.length := by omega
  rw [List.getElem?_append_left (by simp; omega), List.getElem?_append_right (by simp; omega)]
  simp [hz]

theorem padMessage_bitLength (n : Nat) :
    p[m.length + 1 + zfill m.length + n]? = (be64Bytes (BitVec.ofNat 64 (8 * m.length)))[n]? := by
  obtain ⟨-, rfl⟩ := padMessage_eq_some.1 h
  have hfront : (m ++ [0x80] ++ List.replicate (zfill m.length) (0x00 : Byte)).length =
      m.length + 1 + zfill m.length := by simp; omega
  rw [List.getElem?_append_right (by omega), hfront, Nat.add_sub_cancel_left]

end

/-- 41 R132: the last eight bytes give the length, and with it the message. -/
theorem padMessage_injective {m n p : List Byte} (hm : padMessage m = some p) (hn : padMessage n = some p) :
    m = n := by
  obtain ⟨hmfit, hmp⟩ := padMessage_eq_some.1 hm
  obtain ⟨hnfit, hnp⟩ := padMessage_eq_some.1 hn
  obtain ⟨hfront, hlast⟩ := List.append_inj' (hmp.trans hnp.symm) rfl
  have hlen : m.length = n.length :=
    Nat.eq_of_mul_eq_mul_left (by decide : 0 < 8) (be64Bytes_ofNat_injective hmfit hnfit hlast)
  simp only [List.append_assoc] at hfront
  exact (List.append_inj hfront hlen).1

/-- Settles O44: part by part. -/
theorem paddedMessageLayoutAndInjectivity : Obligations.PaddedMessageLayoutAndInjectivity := by
  refine ⟨fun m => ?_, fun m p h => ?_, fun m n p => padMessage_injective⟩
  · simp only [padMessage_eq_some, exists_and_left, exists_eq', and_true]
  · refine ⟨fun q => padMessage_message h, padMessage_mark h, fun q => padMessage_zero h,
      fun n hn => (padMessage_bitLength h n).trans (be64Bytes_getElem? _ hn), padMessage_length h, ?_⟩
    unfold nblk
    omega

/-! ### The lengths in the rule's other forms -/

/-- 41 R131: a remainder 56 is reached after `zfill` bytes and, before that, not at all. -/
theorem zfill_isLeast (l : Nat) :
    (l + 1 + zfill l) % 64 = 56 ∧ ∀ z, (l + 1 + z) % 64 = 56 → zfill l ≤ z := by
  unfold zfill
  exact ⟨by omega, fun z hz => by omega⟩

theorem zfill_eq_emod (l : Nat) : (zfill l : Int) = (55 - (l : Int)) % 64 := by
  unfold zfill
  omega

/-- A rational ceiling of a quotient is the rounded up quotient of the naturals. -/
theorem ceil_natCast_div (a : Nat) {b : Nat} (hb : 0 < b) : ⌈(a : ℚ) / b⌉₊ = (a + b - 1) / b := by
  have hb' : (0 : ℚ) < b := Nat.cast_pos.2 hb
  refine eq_of_forall_ge_iff fun n => ?_
  rw [Nat.ceil_le, div_le_iff₀' hb', ← Nat.ceilDiv_eq_add_pred_div, ceilDiv_le_iff_le_mul hb]
  norm_cast

/-- 41 R131, 90 C1: the blocks in bytes. -/
theorem nblk_eq_ceil (l : Nat) : nblk l = ⌈((l : ℚ) + 9) / 64⌉₊ := by
  have h := ceil_natCast_div (l + 9) (b := 64) (by decide)
  push_cast at h
  rw [h, nblk]

/-- 41 R131: the blocks in bits; no bit length falls short of a whole byte. -/
theorem nblk_eq_ceil_bits (l : Nat) : nblk l = ⌈(8 * (l : ℚ) + 1 + 64) / 512⌉₊ := by
  have h := ceil_natCast_div (8 * l + 1 + 64) (b := 512) (by decide)
  push_cast at h
  rw [h, nblk]
  omega

/-- Settles O43: the fill, the blocks and the parts of a padding. -/
theorem paddingLengths : Obligations.PaddingLengths := by
  refine ⟨fun l => ?_, fun m p h => ⟨padMessage_length_parts h, padMessage_length h⟩⟩
  obtain ⟨hfill, hleast⟩ := zfill_isLeast l
  refine ⟨hfill, hleast, zfill_eq_emod l, zfill_le l, nblk_eq_ceil l, ?_⟩
  rw [← nblk_eq_ceil_bits, Nat.mul_comm]

end Sys2Proof.Machine
end

section
/-! The padding micro-operations (41 R134 to R137): O27 to O30. -/

namespace Sys2Proof.Machine

/-- A read of `MSG` where the host has written: the byte held, and no draw (20 R51, 93 U3). -/
theorem State.readMsg_isSome {s : State} {p : Nat} (h : (s.msg.read p).isSome = true) :
    s.msg.read p = some (s.readMsg p).1 ∧ (s.readMsg p).2.draws = s.draws := by
  obtain ⟨b, hb⟩ := Option.isSome_iff_exists.1 h
  rw [s.readMsg_held hb]
  exact ⟨hb, rfl⟩

/-- Settles O27: the byte stored is the one `MSG` was read for. -/
theorem uPadcopyCopiesOneByte : Obligations.UPadcopyCopiesOneByte :=
  fun s hp => ⟨_, (s.readMsg s.pp.toNat).1, execUPadcopy_inRange hp, rfl, Memory.read_write_same _ _ _,
    fun _ => Memory.read_write_other _ _, State.readMsg_isSome⟩

/-- Settles O28. -/
theorem uPadmarkAppendsTheTerminator : Obligations.UPadmarkAppendsTheTerminator :=
  fun _ hp => ⟨_, execUPadmark_inRange hp, rfl, Memory.read_write_same _ _ _,
    fun _ => Memory.read_write_other _ _⟩

/-- Settles O29. -/
theorem uPadzeroAppendsOneZero : Obligations.UPadzeroAppendsOneZero :=
  fun _ hp => ⟨_, execUPadzero_inRange hp, rfl, Memory.read_write_same _ _ _,
    fun _ => Memory.read_write_other _ _⟩

/-- Settles O30: the eight bytes written are the bytes of the bit length. -/
theorem uPadlenAppendsTheBitLength : Obligations.UPadlenAppendsTheBitLength :=
  fun _ hfit hcap => ⟨_, execUPadlen_inRange hfit hcap, rfl,
    fun _ hn => (Memory.read_writeBytes_inside _ _ _ hn).trans (be64Bytes_getElem? _ hn),
    fun _ hq => Memory.read_writeBytes_outside _ _ hq⟩

end Sys2Proof.Machine
end

section
/-! The padded message between two runs of the padder (41 R139): O51. -/

namespace Sys2Proof.Machine

/-- The phases after `PAD_LEN`, and the idle one (41 R139). -/
def Phase.afterPadding (ph : Phase) : Prop :=
  ph = .schLoad ∨ ph = .schExp ∨ ph = .cmpInit ∨ ph = .cmpRound ∨ ph = .cmpFold ∨ ph = .idle

/-- The micro-operations of the schedule and of the compression only read `PAD`; while idle there is none. -/
theorem exec_afterPadding_keeps_pad {i : Instr} {s u : State} (hs : s.ph.afterPadding)
    (hd : decode (.uop s.ph.code) = .ok i) (hx : exec i s = .next u) : u.pad = s.pad ∧ u.pp = s.pp := by
  have hi := (sequencerAction_eq s.ph).symm.trans (sequencerAction_of_decode hd)
  rcases hs with hp | hp | hp | hp | hp | hp <;> rw [hp] at hi <;> cases hi
  · obtain ⟨-, -, rfl⟩ := execUSchload_next hx; exact ⟨rfl, rfl⟩
  · obtain ⟨-, -, rfl⟩ := execUSchexp_next hx; exact ⟨rfl, rfl⟩
  · cases hx; exact ⟨rfl, rfl⟩
  · obtain ⟨-, rfl⟩ := execUCmpround_next hx; exact ⟨rfl, rfl⟩
  · obtain rfl := execUCmpfold_next hx; exact ⟨rfl, rfl⟩

theorem State.start_pad_pp (s : State) : s.start.pad = s.pad ∧ s.start.pp = s.pp := by
  cases hl : s.inputTooLarge with
  | true => rw [s.start_tooLarge hl]; exact ⟨rfl, rfl⟩
  | false => rw [s.start_accepted hl]; exact ⟨rfl, rfl⟩

/-- `PAD` and `pp` are the padder's alone: no host operation changes them (44 R213). -/
theorem exec_host_keeps_pad {i : Instr} {s u : State} (hi : i.isHost = true) (hx : exec i s = .next u) :
    u.pad = s.pad ∧ u.pp = s.pp := by
  rcases exec_host_cases hi hx with ⟨v, d, rfl⟩ | ⟨-, ⟨p, d, -, rfl⟩ | ⟨n, -, rfl⟩ | ⟨-, rfl⟩⟩
  · exact ⟨rfl, rfl⟩
  · simp
  · exact ⟨rfl, rfl⟩
  · exact s.start_pad_pp

/-- Settles O51: the host never writes `PAD`, and the sequencer in these phases does not. -/
theorem paddedMessageIsNeverMutated : Obligations.PaddedMessageIsNeverMutated := by
  intro s u hs hr h
  rcases step_next_cases h with ⟨w, rest, i, -, hd, hx⟩ | ⟨-, i, hd, hx⟩ | ⟨-, -, rfl⟩ | ⟨rest, hin, -⟩
  · exact exec_host_keeps_pad (s := s.advance) (decodeHost_isHost hd) hx
  · exact exec_afterPadding_keeps_pad (s := s.advance) hs hd hx
  · exact ⟨rfl, rfl⟩
  · simp [State.resetNext, hin] at hr

end Sys2Proof.Machine
end

section
/-! A run computes the digest of its message, step by step (41 R138, 42 R158, 43 R180, R181, 44 R212): O59. -/

namespace Sys2Proof.Machine

/-! ### One more part of a list that is built from its start -/

/-- Where memory holds the first `n` bytes of `p`, the next bytes of `p` written after them extend them. -/
theorem Memory.read_writeBytes_extends {mem : Memory} {p bs : List Byte} {n : Nat}
    (h : ∀ q < n, mem.read q = p[q]?) (hbs : ∀ k < bs.length, bs[k]? = p[n + k]?) :
    ∀ q < n + bs.length, (mem.writeBytes n bs).read q = p[q]? := by
  intro q hq
  rcases Nat.lt_or_ge q n with hlt | hge
  · rw [Memory.read_writeBytes_outside _ _ (.inl hlt), h q hlt]
  · obtain ⟨k, rfl⟩ := Nat.exists_eq_add_of_le hge
    have hk : k < bs.length := by omega
    rw [Memory.read_writeBytes_inside _ _ _ hk, hbs k hk]

/-- The next word of `w` set after the words before it extends them. -/
theorem getElem?_set_extends {v : Vector Word 64} {w : List Word} {x : Word} {t : Nat} (ht : t < 64)
    (h : ∀ i < t, v[i]? = w[i]?) (hx : w[t]? = some x) : ∀ i < t + 1, (v.set t x ht)[i]? = w[i]? := by
  intro i hi
  rcases Nat.lt_succ_iff_lt_or_eq.1 hi with hlt | rfl
  · rw [Vector.getElem?_set_ne ht (by omega), h i hlt]
  · rw [Vector.getElem?_set_self, hx]

/-- Byte `j` of the serialised words is in word `j div 4`, most significant byte first (43 R182). -/
theorem flatMap_be32Bytes_getElem? (ws : List Word) (j : Nat) :
    (ws.flatMap be32Bytes)[j]? = ws[j / 4]?.map fun w => w.extractLsb' (24 - 8 * (j % 4)) 8 := by
  induction ws generalizing j with
  | nil => rfl
  | cons w ws ih =>
    rw [List.flatMap_cons]
    match j with
    | 0 | 1 | 2 | 3 => rfl
    | j + 4 =>
      rw [List.getElem?_append_right (by simp [be32Bytes])]
      show (ws.flatMap be32Bytes)[j]? = _
      rw [ih, Nat.add_div_right j (by decide), Nat.add_mod_right, List.getElem?_cons_succ]

/-- The digest window is the serialised hash state (43 R183). -/
theorem State.dig_eq_ser (s : State) (j : Nat) : s.dig j = (ser s.hash)[j]? := by
  rw [ser, flatMap_be32Bytes_getElem?, Vector.getElem?_toList, State.dig]
  cases s.hash[j / 4]? <;> rfl

section
variable {s u : State} {m p : List Byte} {n : Nat}

/-! ### What `ComputingPadded` says, phase by phase -/

/-- The four phases in which the padder writes `PAD` (41 R138). -/
def Phase.padding (ph : Phase) : Prop := ph = .padCopy ∨ ph = .padMark ∨ ph = .padZero ∨ ph = .padLen

theorem fillPhase_padding (n : Nat) : (fillPhase n).padding := by
  unfold fillPhase
  split
  · exact .inr (.inr (.inr rfl))
  · exact .inr (.inr (.inl rfl))

theorem copyPhase_padding (c : Prop) [Decidable c] : (if c then Phase.padMark else .padCopy).padding := by
  split
  · exact .inr (.inl rfl)
  · exact .inl rfl

/-- The bytes the padder has passed are the padding's. -/
def State.Padded (s : State) (p : List Byte) : Prop := ∀ q < s.pp.toNat, s.pad.read q = p[q]?

/-- The first `n` schedule registers hold the schedule of the block. -/
def State.Scheduled (s : State) (p : List Byte) (n : Nat) : Prop :=
  ∀ i < n, s.schedAt i = (schedule (block p s.blk.toNat))[i]?

/-- The working variables after `n` rounds on the block. -/
def State.Rounded (s : State) (p : List Byte) (n : Nat) : Prop :=
  s.vars = rounds (schedule (block p s.blk.toNat)) (Vars.ofVector s.hash) n

theorem State.computingPadded_padding (hs : s.ph.padding) :
    s.ComputingPadded p ↔ s.Padded p ∧ s.hash = Rom.iv := by
  rcases hs with hp | hp | hp | hp <;> · simp only [State.ComputingPadded, hp]; rfl

theorem State.computingPadded_schedule (hs : s.ph = .schLoad ∨ s.ph = .schExp) :
    s.ComputingPadded p ↔ s.Padded p ∧ s.hash = chain p s.blk.toNat ∧ s.Scheduled p s.t.toNat := by
  rcases hs with hp | hp <;> · simp only [State.ComputingPadded, hp]; rfl

theorem State.computingPadded_cmpInit (hp : s.ph = .cmpInit) :
    s.ComputingPadded p ↔ s.Padded p ∧ s.hash = chain p s.blk.toNat ∧ s.Scheduled p 64 := by
  simp only [State.ComputingPadded, hp]; rfl

theorem State.computingPadded_cmpRound (hp : s.ph = .cmpRound) :
    s.ComputingPadded p ↔ s.Padded p ∧ s.hash = chain p s.blk.toNat ∧ s.Scheduled p 64 ∧
      s.Rounded p s.t.toNat := by
  simp only [State.ComputingPadded, hp]; rfl

theorem State.computingPadded_cmpFold (hp : s.ph = .cmpFold) :
    s.ComputingPadded p ↔ s.Padded p ∧ s.hash = chain p s.blk.toNat ∧ s.Rounded p 64 := by
  simp only [State.ComputingPadded, hp]; rfl

/-! ### What a micro-operation adds to the padded message, to the schedule and to the hash state -/

theorem State.Padded.append (h : s.Padded p) {bs : List Byte} (hpad : u.pad = s.pad.writeBytes s.pp.toNat bs)
    (hpp : u.pp.toNat = s.pp.toNat + bs.length) (hbs : ∀ k < bs.length, bs[k]? = p[s.pp.toNat + k]?) :
    u.Padded p := by
  rw [State.Padded, hpad, hpp]
  exact Memory.read_writeBytes_extends h hbs

theorem State.Padded.push (h : s.Padded p) {b : Byte} (hb : p[s.pp.toNat]? = some b)
    (hpad : u.pad = s.pad.write s.pp.toNat b) (hpp : u.pp.toNat = s.pp.toNat + 1) : u.Padded p := by
  refine h.append (bs := [b]) hpad hpp fun k hk => ?_
  obtain rfl : k = 0 := by simpa using hk
  exact hb.symm

theorem State.Scheduled.push (h : s.Scheduled p s.t.toNat) {x : Word} (ht : s.t.toNat < 64)
    (hx : (schedule (block p s.blk.toNat))[s.t.toNat]? = some x)
    (hsched : u.sched = s.sched.set s.t.toNat x ht) (hblk : u.blk = s.blk) (hn : n = s.t.toNat + 1) :
    u.Scheduled p n := by
  simp only [State.Scheduled, State.schedAt, hsched, hblk, hn]
  exact getElem?_set_extends ht h hx

/-- A register that is scheduled holds its word of the schedule. -/
theorem State.Scheduled.word (h : s.Scheduled p n) {i : Nat} (hi : i < n) (h64 : i < 64) :
    (schedule (block p s.blk.toNat)).getD i 0 = s.sched[i] := by
  rw [List.getD_eq_getElem?_getD, ← h i hi, s.schedAt_eq h64]
  rfl

/-- A word of a block the padder has passed reads as the block's (42 R156, 30 R81). -/
theorem State.Padded.readPadWord (h : s.Padded p) (hp : s.pp.toNat ≤ p.length) {j i : Nat}
    (hj : 64 * j + 64 ≤ s.pp.toNat) (hi : i < 16) :
    (s.readPadWord (64 * j + 4 * i)).1 = blockWord (block p j) i := by
  have byte {k : Nat} (hk : k < 64) : s.pad.read (64 * j + k) = some ((block p j).getD k 0) := by
    have hin : 64 * j + k < p.length := by omega
    rw [h _ (by omega), List.getD_eq_getElem?_getD, block_getElem? p j hk, List.getElem?_eq_getElem hin]
    rfl
  rw [s.readPadWord_held (byte (k := 4 * i) (by omega)) (byte (k := 4 * i + 1) (by omega))
    (byte (k := 4 * i + 2) (by omega)) (byte (k := 4 * i + 3) (by omega))]
  rfl

/-- The fold after the last round is the block function (43 R180). -/
theorem foldHash_rounded (hhash : s.hash = chain p s.blk.toNat) (hvars : s.Rounded p 64) :
    foldHash s.hash s.vars = chain p (s.blk.toNat + 1) := by
  rw [hvars, hhash]
  rfl

/-! ### The micro-operations of the padder -/

theorem execUHinit_computes (hx : execUHinit s = .next u) : u.ComputingPadded p := by
  cases hx
  exact (State.computingPadded_padding (copyPhase_padding _)).2
    ⟨fun q hq => absurd hq (Nat.not_lt_zero q), rfl⟩

section
variable (h : s.Inv) (hm : s.HoldsMessage m) (hpad : padMessage m = some p)
include h hm hpad

theorem execUPadcopy_computes (hp : s.ph = .padCopy) (hc : s.ComputingPadded p)
    (hx : execUPadcopy s = .next u) : u.ComputingPadded p := by
  obtain ⟨hpadded, hhash⟩ := (State.computingPadded_padding (.inl hp)).1 hc
  obtain ⟨-, hlt⟩ := h.len_bounds (by rw [hp]; decide)
  obtain ⟨-, hat⟩ := h.countersWf
  have hpp : s.pp.toNat < s.len.toNat := by rwa [hp] at hat
  obtain ⟨hlen, hmsg⟩ := hm
  have hin : s.pp.toNat < m.length := by omega
  obtain ⟨-, rfl⟩ := execUPadcopy_next hx
  have hread := hmsg _ hin
  have hheld : (s.msg.read s.pp.toNat).isSome = true := by rw [hread, List.getElem?_eq_getElem hin]; rfl
  have hbyte : p[s.pp.toNat]? = some (s.readMsg s.pp.toNat).1 := by
    rw [padMessage_message hpad hin, ← hread, (State.readMsg_isSome hheld).1]
  have hnext : (s.pp + 1).toNat = s.pp.toNat + 1 := by bv_omega
  exact (State.computingPadded_padding (copyPhase_padding _)).2 ⟨hpadded.push hbyte rfl hnext, hhash⟩

theorem execUPadmark_computes (hp : s.ph = .padMark) (hc : s.ComputingPadded p)
    (hx : execUPadmark s = .next u) : u.ComputingPadded p := by
  obtain ⟨hpadded, hhash⟩ := (State.computingPadded_padding (.inr (.inl hp))).1 hc
  obtain ⟨-, hlt⟩ := h.len_bounds (by rw [hp]; decide)
  obtain ⟨-, hat⟩ := h.countersWf
  have hpp : s.pp = s.len := by rwa [hp] at hat
  obtain ⟨hlen, -⟩ := hm
  obtain ⟨-, rfl⟩ := execUPadmark_next hx
  have hbyte : p[s.pp.toNat]? = some 0x80 := by rw [hpp, hlen]; exact padMessage_mark hpad
  have hnext : (s.pp + 1).toNat = s.pp.toNat + 1 := by bv_omega
  exact (State.computingPadded_padding (fillPhase_padding _)).2 ⟨hpadded.push hbyte rfl hnext, hhash⟩

theorem execUPadzero_computes (hp : s.ph = .padZero) (hc : s.ComputingPadded p)
    (hx : execUPadzero s = .next u) : u.ComputingPadded p := by
  obtain ⟨hpadded, hhash⟩ := (State.computingPadded_padding (.inr (.inr (.inl hp)))).1 hc
  obtain ⟨-, hlt⟩ := h.len_bounds (by rw [hp]; decide)
  obtain ⟨-, hat⟩ := h.countersWf
  have hpp : s.len.toNat < s.pp.toNat ∧ s.pp.toNat + 8 < 64 * nblk s.len.toNat := by rwa [hp] at hat
  obtain ⟨hlen, -⟩ := hm
  rw [← length_add_zfill, hlen] at hpp
  have hz := zfill_le m.length
  obtain ⟨-, rfl⟩ := execUPadzero_next hx
  have hbyte : p[s.pp.toNat]? = some 0x00 := padMessage_zero hpad hpp.1 (by omega)
  have hnext : (s.pp + 1).toNat = s.pp.toNat + 1 := by bv_omega
  exact (State.computingPadded_padding (fillPhase_padding _)).2 ⟨hpadded.push hbyte rfl hnext, hhash⟩

theorem execUPadlen_computes (hp : s.ph = .padLen) (hc : s.ComputingPadded p)
    (hx : execUPadlen s = .next u) : u.ComputingPadded p := by
  obtain ⟨hpadded, hhash⟩ := (State.computingPadded_padding (.inr (.inr (.inr hp)))).1 hc
  obtain ⟨-, hlt⟩ := h.len_bounds (by rw [hp]; decide)
  obtain ⟨-, hat⟩ := h.countersWf
  have hpp : s.pp.toNat + 8 = 64 * nblk s.len.toNat := by rwa [hp] at hat
  obtain ⟨hlen, -⟩ := hm
  rw [← length_add_zfill, hlen] at hpp
  have hz := zfill_le m.length
  obtain ⟨-, -, rfl⟩ := execUPadlen_next hx
  have hfield : s.pp.toNat = m.length + 1 + zfill m.length := by omega
  have hbytes (k : Nat) : (be64Bytes (BitVec.ofNat 64 (8 * s.len.toNat)))[k]? = p[s.pp.toNat + k]? := by
    rw [hfield, padMessage_bitLength hpad, hlen]
  have hend : (s.pp + 8).toNat = s.pp.toNat + 8 := by bv_omega
  exact (State.computingPadded_schedule (.inl rfl)).2
    ⟨hpadded.append rfl hend fun k _ => hbytes k, hhash, fun i hi => absurd hi (Nat.not_lt_zero i)⟩

end

/-! ### The micro-operations on a block -/

theorem execUSchload_computes (h : s.Inv) (hm : s.HoldsMessage m) (hpad : padMessage m = some p)
    (hp : s.ph = .schLoad) (hc : s.ComputingPadded p) (hx : execUSchload s = .next u) :
    u.ComputingPadded p := by
  obtain ⟨hpadded, hhash, hsched⟩ := (State.computingPadded_schedule (.inl hp)).1 hc
  obtain ⟨-, hat⟩ := h.countersWf
  rw [hp] at hat
  obtain ⟨hpp, hblk, ht⟩ := hat
  obtain ⟨hlen, -⟩ := hm
  obtain ⟨-, h64, rfl⟩ := execUSchload_next hx
  have hplen : s.pp.toNat = p.length := by rw [hpp, hlen, padMessage_length hpad]
  have hword : (s.readPadWord s.loadAddress).1 = blockWord (block p s.blk.toNat) s.t.toNat :=
    hpadded.readPadWord hplen.le (by omega) (by omega)
  have hnext : (s.t + 1).toNat = s.t.toNat + 1 := by bv_omega
  have hloaded := schedule_loaded (block p s.blk.toNat) (Nat.lt_succ_of_le ht)
  rw [← hword] at hloaded
  exact (State.computingPadded_schedule (ite_eq_or_eq _ _ _).symm).2
    ⟨hpadded, hhash, hsched.push h64 hloaded rfl rfl hnext⟩

theorem execUSchexp_computes (hp : s.ph = .schExp) (hc : s.ComputingPadded p)
    (hx : execUSchexp s = .next u) : u.ComputingPadded p := by
  obtain ⟨hpadded, hhash, hsched⟩ := (State.computingPadded_schedule (.inr hp)).1 hc
  obtain ⟨h16, h64, rfl⟩ := execUSchexp_next hx
  have hderived := schedule_derived (block p s.blk.toNat) h16 h64
  rw [hsched.word (by omega) (by omega), hsched.word (by omega) (by omega), hsched.word (by omega) (by omega),
    hsched.word (by omega) (by omega)] at hderived
  by_cases hlast : s.t.toNat + 1 = 64
  · exact (State.computingPadded_cmpInit (if_pos hlast)).2
      ⟨hpadded, hhash, hsched.push h64 hderived rfl rfl hlast.symm⟩
  · have hnext : (s.t + 1).toNat = s.t.toNat + 1 := by bv_omega
    exact (State.computingPadded_schedule (.inr (if_neg hlast))).2
      ⟨hpadded, hhash, hsched.push h64 hderived rfl rfl hnext⟩

theorem execUCmpinit_computes (hp : s.ph = .cmpInit) (hc : s.ComputingPadded p)
    (hx : execUCmpinit s = .next u) : u.ComputingPadded p := by
  obtain ⟨hpadded, hhash, hsched⟩ := (State.computingPadded_cmpInit hp).1 hc
  cases hx
  exact (State.computingPadded_cmpRound rfl).2 ⟨hpadded, hhash, hsched, rfl⟩

theorem execUCmpround_computes (hp : s.ph = .cmpRound) (hc : s.ComputingPadded p)
    (hx : execUCmpround s = .next u) : u.ComputingPadded p := by
  obtain ⟨hpadded, hhash, hsched, hvars⟩ := (State.computingPadded_cmpRound hp).1 hc
  obtain ⟨h64, rfl⟩ := execUCmpround_next hx
  have hround : round s.vars Rom.k[s.t.toNat] s.sched[s.t.toNat] =
      rounds (schedule (block p s.blk.toNat)) (Vars.ofVector s.hash) (s.t.toNat + 1) := by
    rw [rounds, ← hvars, Rom.kAt_eq h64, hsched.word h64 h64]
    rfl
  by_cases hlast : s.t.toNat + 1 = 64
  · rw [hlast] at hround
    exact (State.computingPadded_cmpFold (if_pos hlast)).2 ⟨hpadded, hhash, hround⟩
  · have hnext : (s.t + 1).toNat = s.t.toNat + 1 := by bv_omega
    rw [← hnext] at hround
    exact (State.computingPadded_cmpRound (if_neg hlast)).2 ⟨hpadded, hhash, hsched, hround⟩

theorem execUCmpfold_computes (h : s.Inv) (hm : s.HoldsMessage m) (hpad : padMessage m = some p)
    (hp : s.ph = .cmpFold) (hc : s.ComputingPadded p) (hx : execUCmpfold s = .next u) :
    u.ComputingPadded p ∨ u.Finished m := by
  obtain ⟨hpadded, hhash, hvars⟩ := (State.computingPadded_cmpFold hp).1 hc
  have hfold := foldHash_rounded hhash hvars
  obtain ⟨-, hlt⟩ := h.len_bounds (by rw [hp]; decide)
  obtain ⟨-, hat⟩ := h.countersWf
  rw [hp] at hat
  obtain ⟨hpp, hblk, -⟩ := hat
  obtain ⟨hlen, -⟩ := hm
  obtain rfl := execUCmpfold_next hx
  by_cases hlast : s.blk.toNat + 1 = s.pp.toNat / 64
  · have herr : s.err = false := by
      obtain ⟨-, ⟨hbusy, -⟩, -, -⟩ := h
      exact (hbusy (s.busy_iff.2 (by rw [hp]; decide))).2
    have hdigest : sha256 m = some (ser (foldHash s.hash s.vars)) := by
      rw [sha256, hpad, hfold, hlast, hpp, hlen, ← padMessage_length hpad]
      rfl
    exact .inr ⟨if_pos hlast, if_pos hlast, herr, _, hdigest, fun j _ => State.dig_eq_ser _ j⟩
  · have hn := nblk_bounds s.len.toNat
    have hnext : (s.blk + 1).toNat = s.blk.toNat + 1 := by bv_omega
    simp only [if_neg hlast]
    refine .inl ((State.computingPadded_schedule (.inl rfl)).2
      ⟨hpadded, ?_, fun i hi => absurd hi (Nat.not_lt_zero i)⟩)
    show foldHash s.hash s.vars = chain p (s.blk + 1).toNat
    rw [hnext, hfold]

/-! ### The step -/

/-- The sequencer's step of each phase: only the last fold ends the run. -/
theorem exec_microOp_computes {i : Instr} (h : s.Inv) (hm : s.HoldsMessage m) (hpad : padMessage m = some p)
    (hc : s.ComputingPadded p) (hd : decode (.uop s.ph.code) = .ok i) (hx : exec i s = .next u) :
    u.ComputingPadded p ∨ u.Finished m := by
  have hi := (sequencerAction_eq s.ph).symm.trans (sequencerAction_of_decode hd)
  cases hp : s.ph <;> rw [hp] at hi <;> cases hi
  case hInit => exact .inl (execUHinit_computes hx)
  case padCopy => exact .inl (execUPadcopy_computes h hm hpad hp hc hx)
  case padMark => exact .inl (execUPadmark_computes h hm hpad hp hc hx)
  case padZero => exact .inl (execUPadzero_computes h hm hpad hp hc hx)
  case padLen => exact .inl (execUPadlen_computes h hm hpad hp hc hx)
  case schLoad => exact .inl (execUSchload_computes h hm hpad hp hc hx)
  case schExp => exact .inl (execUSchexp_computes hp hc hx)
  case cmpInit => exact .inl (execUCmpinit_computes hp hc hx)
  case cmpRound => exact .inl (execUCmpround_computes hp hc hx)
  case cmpFold => exact execUCmpfold_computes h hm hpad hp hc hx

/-- An idle core computes nothing. -/
theorem State.ComputingPadded.busy (hc : s.ComputingPadded p) : s.ph ≠ .idle := by
  intro hidle
  simp only [State.ComputingPadded, hidle] at hc

/-- A length within the memory is no `InputTooLarge`: the memory is below 2^61 bytes (00 R6, 60 R241). -/
theorem State.inputTooLarge_eq_false (h : s.len.toNat ≤ s.cfg.msgCap.val) : s.inputTooLarge = false := by
  have hcap := s.cfg.msgCap.isLt
  simp only [State.inputTooLarge, Bool.or_eq_false_iff, decide_eq_false_iff_not]
  omega

/-- A start on a message that fits is accepted (44 R218). -/
theorem exec_hstart_accepted (hs : s.ph = .idle) (hcap : s.len.toNat ≤ s.cfg.msgCap.val) :
    exec .hstart s = .next (s.acceptStart.answer 0) := by
  show Host.Outcome.next (s.gated State.start) = _
  rw [s.gated_idle _ (s.not_busy_iff.2 hs), s.start_accepted (State.inputTooLarge_eq_false hcap)]

/-- After an accepted start the message stands, it has a padding, and nothing is to be computed yet. -/
theorem exec_hstart_computes (hs : s.ph = .idle) (hm : s.HoldsMessage m) (hcap : m.length ≤ s.cfg.msgCap.val) :
    ∃ u, exec .hstart s = .next u ∧ u.Computing m := by
  have ⟨hlen, _⟩ := hm
  have hmax := s.cfg.msgCap.isLt
  have hfit : 8 * m.length < 2 ^ 64 := by omega
  exact ⟨_, exec_hstart_accepted hs (hlen.trans_le hcap), hm, _, if_pos hfit, trivial⟩

end

/-- Settles O59: while busy the host only gets answers, and each micro-operation does its part of the run. -/
theorem runKeepsComputingTheDigest : Obligations.RunKeepsComputingTheDigest := by
  refine ⟨fun s m => exec_hstart_computes, fun s u m h hcomp hr hstep => ?_⟩
  obtain ⟨hm, p, hpad, hc⟩ := hcomp
  rcases step_next_cases hstep with ⟨w, rest, i, -, hd, hx⟩ | ⟨-, i, hd, hx⟩ | ⟨-, hidle, -⟩ | ⟨rest, hin, -⟩
  · rcases exec_host_cases (decodeHost_isHost hd) hx with ⟨v, d, rfl⟩ | ⟨hidle, -⟩
    · exact .inl ⟨hm, p, hpad, hc⟩
    · exact absurd hidle hc.busy
  · obtain ⟨hmsg, hlen⟩ := messageIsFixedDuringARun s u hc.busy hr hstep
    have hm' : u.HoldsMessage m := by rwa [State.HoldsMessage, hmsg, hlen]
    exact (exec_microOp_computes (s := s.advance) h hm hpad hc hd hx).imp_left fun hu => ⟨hm', p, hpad, hu⟩
  · exact absurd hidle hc.busy
  · simp [State.resetNext, hin] at hr

end Sys2Proof.Machine
end

section
/-! Arithmetic and logic on 32-bit words (00 R8, 42 R150 to R154, 43 R171, R172): O37, O38 and O40. -/

namespace Sys2Proof.Machine

/-! ### Rotations -/

/-- The rule's rotation is the library's (42 R151). -/
theorem rotr_eq_rotateRight (x : Word) {n : Nat} (h : n < 32) : rotr x n = x.rotateRight n := by
  rw [rotr, BitVec.rotateRight_def, Nat.mod_eq_of_lt h]

/-- 42 R151: up to bit `31 - n` the bits come from the left, above it they wrap around. -/
theorem rotr_getLsbD (x : Word) {n i : Nat} (hn : n < 32) (hi : i < 32) :
    (rotr x n).getLsbD i = x.getLsbD ((i + n) % 32) := by
  rw [rotr_eq_rotateRight x hn, BitVec.getLsbD_rotateRight, Nat.mod_eq_of_lt hn]
  by_cases hin : i < 32 - n
  · rw [decide_eq_true hin, cond_true, Nat.mod_eq_of_lt (by omega), Nat.add_comm]
  · have hwrap : (i + n) % 32 = i - (32 - n) := by omega
    rw [decide_eq_false hin, cond_false, decide_eq_true hi, Bool.true_and, hwrap]

/-- 42 R151, the second form: the low `n` bits move above the `32 - n` others. -/
theorem rotr_toNat (x : Word) {n : Nat} (h : n < 32) :
    (rotr x n).toNat = x.toNat / 2 ^ n + x.toNat % 2 ^ n * 2 ^ (32 - n) := by
  have hpow : 2 ^ 32 = 2 ^ n * 2 ^ (32 - n) := by rw [← Nat.pow_add, Nat.add_sub_cancel' h.le]
  have hhigh : x.toNat / 2 ^ n < 2 ^ (32 - n) := Nat.div_lt_of_lt_mul (hpow ▸ x.isLt)
  have hlow : x.toNat <<< (32 - n) % 2 ^ 32 = (x.toNat % 2 ^ n) <<< (32 - n) := by
    rw [Nat.shiftLeft_eq, Nat.shiftLeft_eq, hpow, Nat.mul_mod_mul_right]
  rw [rotr_eq_rotateRight x h, BitVec.toNat_rotateRight, Nat.mod_eq_of_lt h, hlow,
    Nat.shiftRight_eq_div_pow, Nat.or_comm, ← Nat.shiftLeft_add_eq_or_of_lt hhigh, Nat.shiftLeft_eq,
    Nat.add_comm]

/-- Settles O37: both forms hold for every amount below 32. -/
theorem rotateRightMovesEachBit : Obligations.RotateRightMovesEachBit :=
  fun x _ _ hn => ⟨fun _ => rotr_getLsbD x (by omega), rotr_toNat x (by omega)⟩

/-! ### Sums and shifts -/

theorem add32_toNat (x y : Word) : (add32 x y).toNat = (x.toNat + y.toNat) % 2 ^ 32 := BitVec.toNat_add x y

/-- 00 R8: a running sum drops its carries on the way, and the sum of all words at the end. -/
theorem foldl_add32_toNat (ws : List Word) (x : Word) :
    (ws.foldl add32 x).toNat = (x.toNat + (ws.map BitVec.toNat).sum) % 2 ^ 32 := by
  induction ws generalizing x with
  | nil => exact (Nat.mod_eq_of_lt x.isLt).symm
  | cons w ws ih =>
    rw [List.foldl_cons, ih, add32_toNat, List.map_cons, List.sum_cons, Nat.mod_add_mod, Nat.add_assoc]

theorem shr_toNat (x : Word) (n : Nat) : (shr x n).toNat = x.toNat / 2 ^ n := by
  rw [shr, BitVec.toNat_ushiftRight, Nat.shiftRight_eq_div_pow]

/-- Settles O38: sums by the fold, and each operator by its bits or its value. -/
theorem addWrapsAndShiftDivides : Obligations.AddWrapsAndShiftDivides := by
  refine ⟨add32_toNat, fun ws => ?_, fun x y i hi => ⟨BitVec.getLsbD_and, BitVec.getLsbD_xor, ?_⟩,
    fun x => BitVec.toNat_not, fun x n _ => shr_toNat x n⟩
  · rw [foldl_add32_toNat, BitVec.ofNat_eq_ofNat, BitVec.toNat_zero, Nat.zero_add]
  · rw [BitVec.getLsbD_not, decide_eq_true hi, Bool.true_and]

/-! ### The mixing functions -/

/-- 42 R152: past bit 31 of the word there are zeros. -/
theorem shr_getLsbD (x : Word) (n i : Nat) :
    (shr x n).getLsbD i = (decide (i + n < 32) && x.getLsbD (i + n)) := by
  rw [shr, BitVec.getLsbD_ushiftRight, Nat.add_comm n i]
  by_cases h : i + n < 32
  · rw [decide_eq_true h, Bool.true_and]
  · rw [decide_eq_false h, Bool.false_and, BitVec.getLsbD_of_ge x _ (by omega)]

/-- Settles O40: each function is the exclusive or of rotations and shifts, taken bit by bit. -/
theorem sigmaFunctionsBitByBit : Obligations.SigmaFunctionsBitByBit := by
  intro x i hi
  simp (disch := omega) only [ssig0, ssig1, bsig0, bsig1, BitVec.getLsbD_xor, rotr_getLsbD, shr_getLsbD,
    and_self]

end Sys2Proof.Machine
end

section
/-! The schedule micro-operations (42 R156, R157): O31 and O32. -/

namespace Sys2Proof.Machine

/-- A byte appended below a value moves it up by one byte (00 R10). -/
theorem append_byte_toNat {n : Nat} (x : BitVec n) (b : Byte) : (x ++ b).toNat = x.toNat * 2 ^ 8 + b.toNat := by
  rw [BitVec.toNat_append, ← Nat.shiftLeft_add_eq_or_of_lt b.isLt, Nat.shiftLeft_eq]

/-- The value of a big-endian word (00 R10, 30 R81). -/
theorem be32_toNat (b0 b1 b2 b3 : Byte) : (be32 b0 b1 b2 b3).toNat =
    b0.toNat * 2 ^ 24 + b1.toNat * 2 ^ 16 + b2.toNat * 2 ^ 8 + b3.toNat := by
  rw [be32, append_byte_toNat, append_byte_toNat, append_byte_toNat]
  omega

/-- Settles O31: the word stored is the one read, and a read of held bytes draws nothing. -/
theorem uSchloadLoadsABigEndianWord : Obligations.USchloadLoadsABigEndianWord := by
  intro s ht hcap
  have ht64 : s.t.toNat < 64 := by omega
  refine ⟨_, execUSchload_inRange hcap ht64, rfl, fun i hi => Vector.getElem?_set_ne ht64 hi.symm,
    fun b0 b1 b2 b3 h0 h1 h2 h3 => ?_⟩
  have hread : s.readPadWord s.loadAddress = (be32 b0 b1 b2 b3, s) := s.readPadWord_held h0 h1 h2 h3
  refine ⟨congrArg (·.2.draws) hread, be32 b0 b1 b2 b3, ?_, be32_toNat b0 b1 b2 b3⟩
  simp only [hread, Vector.getElem?_set_self]

/-- The recurrence as a sum of words (42 R155). -/
theorem expandWord_eq_sum (w16 w15 w7 w2 : Word) :
    expandWord w16 w15 w7 w2 = w16 + ssig0 w15 + w7 + ssig1 w2 := rfl

/-- Settles O32: the word stored is the recurrence's on the four words before it. -/
theorem uSchexpDerivesOneWord : Obligations.USchexpDerivesOneWord := by
  refine ⟨rfl, rfl, fun s h1 h2 => ?_⟩
  have ht64 : s.t.toNat < 64 := by omega
  exact ⟨_, execUSchexp_inRange h1 ht64, rfl, fun i hi => Vector.getElem?_set_ne ht64 hi.symm,
    (Vector.getElem?_set_self ht64).trans (congrArg some (expandWord_eq_sum _ _ _ _))⟩

end Sys2Proof.Machine
end

section
/-! Choose and majority (43 R173, R174): O39. -/

namespace Sys2Proof.Machine

/-- 43 R173: the bit of `x` selects between those of `y` and `z`. -/
theorem ch_getLsbD (x y z : Word) {i : Nat} (hi : i < 32) :
    (ch x y z).getLsbD i = if x.getLsbD i then y.getLsbD i else z.getLsbD i := by
  rw [ch, BitVec.getLsbD_xor, BitVec.getLsbD_and, BitVec.getLsbD_and, BitVec.getLsbD_not,
    decide_eq_true hi, Bool.true_and]
  cases x.getLsbD i with
  | true => simp
  | false => simp

/-- The exclusive or of the three conjunctions is the majority of three bits. -/
theorem xor_ands_eq_majority : ∀ a b c : Bool,
    ((a && b) ^^ (a && c) ^^ (b && c)) = decide (2 ≤ a.toNat + b.toNat + c.toNat) := by
  decide

/-- 43 R174: a bit is set where at least two of the three are. -/
theorem maj_getLsbD (x y z : Word) (i : Nat) : (maj x y z).getLsbD i =
    decide (2 ≤ (x.getLsbD i).toNat + (y.getLsbD i).toNat + (z.getLsbD i).toNat) := by
  rw [maj, BitVec.getLsbD_xor, BitVec.getLsbD_xor, BitVec.getLsbD_and, BitVec.getLsbD_and,
    BitVec.getLsbD_and, xor_ands_eq_majority]

theorem maj_swap_left (x y z : Word) : maj x y z = maj y x z := by
  rw [maj, maj, BitVec.and_comm x y, BitVec.xor_assoc, BitVec.xor_assoc, BitVec.xor_comm (x &&& z)]

theorem maj_swap_right (x y z : Word) : maj x y z = maj x z y := by
  rw [maj, maj, BitVec.and_comm y z, BitVec.xor_comm (x &&& y)]

/-- Settles O39: each function by its bits; the two swaps give every order of the three words. -/
theorem chooseAndMajorityBitByBit : Obligations.ChooseAndMajorityBitByBit :=
  fun x y z i hi => ⟨ch_getLsbD x y z hi, maj_getLsbD x y z i, maj_swap_left x y z, maj_swap_right x y z⟩

end Sys2Proof.Machine
end

section
/-! The compression micro-operations (43 R175 to R179): O33, O34 and O35. -/

namespace Sys2Proof.Machine

/-- Settles O33: the eight words of `H`, in order. -/
theorem uCmpinitLoadsTheWorkingVariables : Obligations.UCmpinitLoadsTheWorkingVariables :=
  fun s => ⟨_, rfl, rfl, Vars.toVector_ofVector s.hash⟩

/-- One round as sums of words (43 R175). -/
theorem round_eq_sums (v : Vars) (k w : Word) :
    let t1 := v.h + bsig1 v.e + ch v.e v.f v.g + k + w
    let t2 := bsig0 v.a + maj v.a v.b v.c
    round v k w = ⟨t1 + t2, v.a, v.b, v.c, v.d + t1, v.e, v.f, v.g⟩ := rfl

/-- Settles O34: `K[t]` and `W[t]` exist, and the new variables are the round's on them. -/
theorem uCmproundRunsOneRound : Obligations.UCmproundRunsOneRound := by
  refine ⟨rfl, rfl, fun s h => ?_⟩
  refine (execUCmpround_inRange h).trans ?_
  rw [round_eq_sums]

section
variable {s : State}

/-- 43 R179: the last block ends the run. -/
theorem execUCmpfold_last (h : s.blk.toNat + 1 = s.pp.toNat / 64) : execUCmpfold s =
    .next { s with hash := foldHash s.hash s.vars, blk := s.blk + 1, valid := true, ph := .idle } :=
  if_pos h

/-- 43 R179: any other block opens the next one. -/
theorem execUCmpfold_notLast (h : s.blk.toNat + 1 ≠ s.pp.toNat / 64) : execUCmpfold s =
    .next { s with hash := foldHash s.hash s.vars, blk := s.blk + 1, t := 0, ph := .schLoad } :=
  if_neg h

end

/-- Settles O35: both ends fold every word of `H`. -/
theorem uCmpfoldFoldsAndClosesTheBlock : Obligations.UCmpfoldFoldsAndClosesTheBlock := by
  refine ⟨rfl, rfl, fun s => ?_⟩
  by_cases hlast : s.blk.toNat + 1 = s.pp.toNat / 64
  · exact ⟨_, execUCmpfold_last hlast, fun _ => foldHash_get _ _, (if_pos hlast).symm⟩
  · exact ⟨_, execUCmpfold_notLast hlast, fun _ => foldHash_get _ _, (if_neg hlast).symm⟩

end Sys2Proof.Machine
end

section
/-! The digest and its window (43 R182 to R186, 20 R54, 44 R210): O45. -/

namespace Sys2Proof.Machine

/-- Elements that each give `n` give `n` times as many. -/
theorem length_flatMap_eq_mul {α β : Type} {f : α → List β} {n : Nat} (h : ∀ a, (f a).length = n)
    (l : List α) : (l.flatMap f).length = n * l.length := by
  simp [List.length_flatMap, h, Nat.mul_comm]

/-- 43 R182: four bytes for each of the eight words. -/
theorem ser_length (hash : Vector Word 8) : (ser hash).length = 32 := by
  rw [ser, length_flatMap_eq_mul (n := 4) fun _ => rfl, Vector.length_toList]

/-- 43 R186: two characters for each byte. -/
theorem hex_length (d : List Byte) : (hex d).length = 2 * d.length := by
  rw [hex, length_flatMap_eq_mul (n := 2) fun _ => rfl]

/-- 20 R54: byte `j` of the window is eight bits of word `j div 4`. -/
theorem State.dig_inRange (s : State) {j : Nat} (h : j < 32) :
    s.dig j = some ((s.hash[j / 4]).extractLsb' (24 - 8 * (j % 4)) 8) := by
  have hword : j / 4 < 8 := by omega
  rw [State.dig, Vector.getElem?_eq_getElem hword]

/-- A digest is the serialised hash state after the blocks of the padded message (44 R210). -/
theorem sha256_eq_some {m d : List Byte} :
    sha256 m = some d ↔ ∃ p, padMessage m = some p ∧ ser (hashBlocks p) = d := Option.map_eq_some_iff

theorem sha256_length {m d : List Byte} (h : sha256 m = some d) : d.length = 32 := by
  obtain ⟨p, -, rfl⟩ := sha256_eq_some.1 h
  exact ser_length _

/-- There is a digest where there is a padding, which needs a bit length that fits 64 bits (93 U1). -/
theorem exists_sha256_iff (m : List Byte) : (∃ d, sha256 m = some d) ↔ m.length ≤ 2 ^ 61 - 1 := by
  have hpad : (∃ d, sha256 m = some d) ↔ 8 * m.length < 2 ^ 64 := by
    simp [sha256_eq_some, padMessage_eq_some]
  rw [hpad]
  omega

/-- Settles O45: the window is the serialised hash state, of which every digest is one. -/
theorem digestIsThirtyTwoBytes : Obligations.DigestIsThirtyTwoBytes := by
  refine ⟨fun s => ⟨ser_length s.hash, s.dig_eq_ser, fun _ => s.dig_inRange⟩, fun m d h => ?_,
    exists_sha256_iff⟩
  have hlen := sha256_length h
  exact ⟨hlen, by rw [hex_length, hlen]⟩

end Sys2Proof.Machine
end

section
/-! The host operations one by one (44 R215 to R223): O14 to O19, O21, O22, O24, O25 and O56. -/

namespace Sys2Proof.Machine

/-! ### Reads and the operation that does nothing -/

/-- Settles O14: the operation ignores both buses. -/
theorem hnopAnswersZero : Obligations.HnopAnswersZero := ⟨fun _ _ => rfl, fun _ => rfl⟩

/-- Settles O21: a read of `STATUS` is an answer and nothing else. -/
theorem hrdStatusReadsStatus : Obligations.HrdStatusReadsStatus := fun _ => rfl

/-- Settles O25: a read of `LEN` is an answer and nothing else. -/
theorem hrdLenReadsTheLength : Obligations.HrdLenReadsTheLength := ⟨fun _ _ => rfl, fun _ => rfl⟩

/-- A read with a value answers it (44 R220 to R222). -/
theorem State.answerOrFree_some (s : State) (v : Dword) : s.answerOrFree (some v) = s.answer v := rfl

/-- Settles O22: inside the window there is a byte, and the window is the serialised hash state. -/
theorem hrdDigestReadsTheWindow : Obligations.HrdDigestReadsTheWindow := by
  intro s j hvalid hj
  have hbyte := s.dig_inRange (Nat.lt_succ_of_le hj)
  refine ⟨_, (s.dig_eq_ser _).symm.trans hbyte, ?_⟩
  rw [exec_hrdDigest, if_pos hvalid, hbyte, Option.map_some, s.answerOrFree_some]
  rfl

/-- Settles O24: inside its table each index has a word. -/
theorem romReadsReturnTheWord : Obligations.RomReadsReturnTheWord := by
  refine ⟨fun s k hk => ?_, fun s i hi => ?_⟩
  · rw [exec_hrdIv, Rom.ivAt_eq hk, Option.map_some, s.answerOrFree_some]
    rfl
  · rw [exec_hrdK, Rom.kAt_eq hi, Option.map_some, s.answerOrFree_some]
    rfl

/-! ### The three operations under the gate of 44 R213 -/

theorem exec_hwrMsg (p d : Dword) (s : State) :
    exec (.hwrMsg p d) s = .next (s.gated fun u => u.writeMsg p.toNat (dataByte d)) := rfl

theorem exec_hwrLen (n : Dword) (s : State) :
    exec (.hwrLen n) s = .next (s.gated fun u => { u with len := n }) := rfl

theorem exec_hstart (s : State) : exec .hstart s = .next (s.gated State.start) := rfl

/-- Settles O15: inside `MSG` the write is a memory's; outside it nothing is stored. -/
theorem hwrMsgStoresOneByte : Obligations.HwrMsgStoresOneByte := by
  intro s p d
  refine ⟨fun hs hp => ⟨{ s with msg := s.msg.write p.toNat (dataByte d), hrdata := 0 }, ?_, rfl,
    Memory.read_write_same _ _ _, fun q => Memory.read_write_other _ _⟩, fun h => ?_⟩
  · rw [exec_hwrMsg, s.gated_idle _ (s.not_busy_iff.2 hs), s.writeMsg_inRange hp]
    rfl
  · rw [exec_hwrMsg]
    rcases h with hs | hp
    · rw [s.gated_busy _ (s.busy_iff.2 hs)]
      rfl
    · rcases s.gated_cases fun u => u.writeMsg p.toNat (dataByte d) with hg | ⟨-, hg⟩
      · rw [hg]
        rfl
      · rw [hg, s.writeMsg_outOfRange hp]
        rfl

/-- Settles O16: the gate's two sides. -/
theorem hwrLenStoresTheLength : Obligations.HwrLenStoresTheLength := by
  refine fun s n => ⟨fun hs => ?_, fun hs => ?_⟩
  · rw [exec_hwrLen, s.gated_idle _ (s.not_busy_iff.2 hs)]
    rfl
  · rw [exec_hwrLen, s.gated_busy _ (s.busy_iff.2 hs)]
    rfl

/-- Settles O17: the gate is closed for the writes and the start, and no read has a gate. -/
theorem busyGateDropsWritesAndStarts : Obligations.BusyGateDropsWritesAndStarts := by
  intro s hs
  have dropped (f : State → State) : (.next (s.gated f) : Result) = .next { s with hrdata := 0 } :=
    congrArg _ (s.gated_busy f (s.busy_iff.2 hs))
  exact ⟨fun _ _ => dropped _, fun _ => dropped _, dropped _, rfl, rfl,
    fun _ => ⟨⟨_, rfl⟩, ⟨_, rfl⟩, ⟨_, rfl⟩⟩⟩

/-- Settles O18: the capacity is below 2^61, so a length within it passes the whole test. -/
theorem hstartAcceptedStartsARun : Obligations.HstartAcceptedStartsARun :=
  fun _ hs _ hcap => exec_hstart_accepted hs hcap

/-- The condition of the exception (60 R241, R242). -/
theorem State.inputTooLarge_iff (s : State) :
    s.inputTooLarge = true ↔ 2 ^ 64 ≤ 8 * s.len.toNat ∨ s.cfg.msgCap.val < s.len.toNat := by
  simp only [State.inputTooLarge, Bool.or_eq_true, decide_eq_true_eq]

/-- A start on a message that does not fit is rejected (44 R218, 60 R244). -/
theorem exec_hstart_rejected {s : State} (hs : s.ph = .idle) (hlarge : s.inputTooLarge = true) :
    exec .hstart s = .next (s.raiseInputTooLarge.answer 0) := by
  rw [exec_hstart, s.gated_idle _ (s.not_busy_iff.2 hs), s.start_tooLarge hlarge]

/-- Settles O19: the exception's entry, and `STATUS` from the flags it writes. -/
theorem hstartRejectsTooLargeInput : Obligations.HstartRejectsTooLargeInput := by
  intro s hs hlarge
  refine ⟨exec_hstart_rejected hs (s.inputTooLarge_iff.2 hlarge), ?_⟩
  have hidle : s.raiseInputTooLarge.busy = false := (State.not_busy_iff _).2 hs
  show (s.raiseInputTooLarge.answer 0).status = 0x104
  simp [State.status, hidle]

/-! ### What no host operation reaches -/

theorem exec_host_completes {i : Instr} (hi : i.isHost = true) (s : State) : ∃ u, exec i s = .next u := by
  cases i with
  | hnop | hwrMsg | hwrLen | hstart | hrdStatus | hrdDigest | hrdIv | hrdK | hrdLen => exact ⟨_, rfl⟩
  | uHinit | uPadcopy | uPadmark | uPadzero | uPadlen | uSchload | uSchexp | uCmpinit | uCmpround
  | uCmpfold => cases hi

theorem State.writeMsg_frame (s : State) (p : Nat) (b : Byte) :
    s.writeMsg p b = { s with msg := (s.writeMsg p b).msg } := by
  unfold State.writeMsg
  split <;> rfl

/-- A start writes the flags and the phase (44 R218). -/
theorem State.start_frame (s : State) :
    s.start = { s with
      ph := s.start.ph, valid := s.start.valid, err := s.start.err, ecause := s.start.ecause } := by
  cases hl : s.inputTooLarge with
  | true => rw [s.start_tooLarge hl]; rfl
  | false => rw [s.start_accepted hl]; rfl

/-- While busy a host operation only answers (44 R213). -/
theorem exec_host_busy {i : Instr} {s u : State} (hi : i.isHost = true) (hs : s.ph ≠ .idle)
    (hx : exec i s = .next u) : u = { s with hrdata := u.hrdata, draws := u.draws } := by
  rcases exec_host_cases hi hx with ⟨v, d, rfl⟩ | ⟨hidle, -⟩
  · rfl
  · exact absurd hidle hs

/-- Busy or idle, a host operation writes neither the compressor's state nor `PAD` nor a counter (20 R60). -/
theorem exec_host_frame {i : Instr} {s u : State} (hi : i.isHost = true) (hx : exec i s = .next u) :
    u = { s with
      ph := u.ph, len := u.len, valid := u.valid, err := u.err, ecause := u.ecause, msg := u.msg
      hrdata := u.hrdata, draws := u.draws } := by
  rcases exec_host_cases hi hx with ⟨v, d, rfl⟩ | ⟨-, ⟨p, d, -, rfl⟩ | ⟨n, -, rfl⟩ | ⟨-, rfl⟩⟩
  · rfl
  · rw [s.writeMsg_frame]; rfl
  · rfl
  · rw [s.start_frame]; rfl

/-- Settles O56: each operation completes, and what it can do is within both frames. -/
theorem hostCannotDisturbTheCore : Obligations.HostCannotDisturbTheCore := by
  intro s i hi
  obtain ⟨u, hx⟩ := exec_host_completes hi s
  exact ⟨u, hx, fun hs => exec_host_busy hi hs hx, exec_host_frame hi hx⟩

end Sys2Proof.Machine
end

section
/-! The two agents' steps: the micro-operation of the phase, no fault, and the phase graph (44 R200 to
R205): O7, O26, O48 and O54. -/

namespace Sys2Proof.Machine

section
variable {s u : State}

/-! ### Whose step is next -/

theorem State.next_cases (s : State) :
    s.sequencerNext = true ∨ s.resetNext = true ∨ ∃ w rest, s.inputs = .host w :: rest := by
  unfold State.sequencerNext State.resetNext
  match s.inputs with
  | [] | .sequencer :: _ => exact .inl rfl
  | .reset :: _ => exact .inr (.inl rfl)
  | .host w :: rest => exact .inr (.inr ⟨w, rest, rfl⟩)

theorem State.nextAction_sequencer (h : s.sequencerNext = true) : s.nextAction = sequencerAction s.ph := by
  unfold State.sequencerNext at h
  unfold State.nextAction
  split at h <;> simp_all only [Bool.false_eq_true]

theorem step_sequencer_run {i : Instr} (h : s.sequencerNext = true) (hd : decode (.uop s.ph.code) = .ok i) :
    step s = exec i s.advance := by
  rw [step, State.nextAction_sequencer h, sequencerAction_of_decode hd]

theorem step_sequencer_idle (h : s.sequencerNext = true) (hs : s.ph = .idle) : step s = .next s.advance := by
  rw [step, State.nextAction_sequencer h, hs]
  rfl

theorem step_reset (h : s.resetNext = true) : step s = .next s.advance.resetEvent := by
  unfold State.resetNext at h
  split at h
  · rename_i rest hin
    simp only [step, State.nextAction, hin]
  · cases h

/-- Every host code up to 8 has an operation (30 R87). -/
theorem decodeHost_of_hop_le {w : HostWord} (h : w.hop ≤ 8) : ∃ i, decode (.host w) = .ok i := by
  have codes : ∀ c : BitVec 4, c ≤ 8 →
      c = 0 ∨ c = 1 ∨ c = 2 ∨ c = 3 ∨ c = 4 ∨ c = 5 ∨ c = 6 ∨ c = 7 ∨ c = 8 := by decide
  obtain ⟨hop, a, d⟩ := w
  rcases codes hop h with rfl | rfl | rfl | rfl | rfl | rfl | rfl | rfl | rfl <;> exact ⟨_, rfl⟩

/-- A host step that answered a next state ran the operation its word decodes to. -/
theorem step_host_next {w : HostWord} {rest : List Input} (hin : s.inputs = .host w :: rest)
    (h : step s = .next u) : ∃ i, decode (.host w) = .ok i ∧ exec i s.advance = .next u := by
  cases hd : decode (.host w) with
  | ok i => exact ⟨i, rfl, by rw [← h, step, State.nextAction_host_run hin hd]⟩
  | error e =>
    rw [step, State.nextAction_host_refuse hin hd] at h
    cases h

/-- Every phase but the idle one has a micro-operation (30 R89). -/
theorem exists_microOp {ph : Phase} (h : ph ≠ .idle) : ∃ i, decode (.uop ph.code) = .ok i := by
  cases ph with
  | idle => exact absurd rfl h
  | hInit | padCopy | padMark | padZero | padLen | schLoad | schExp | cmpInit | cmpRound | cmpFold =>
    exact ⟨_, rfl⟩

/-- The idle phase has none (44 R201). -/
theorem ph_ne_idle_of_microOp {ph : Phase} {i : Instr} (hd : decode (.uop ph.code) = .ok i) : ph ≠ .idle := by
  rintro rfl
  cases hd

/-! ### No step faults -/

/-- The padded message fits `PAD` (00 R6, 20 R52). -/
theorem State.Inv.blocks_fit (h : s.Inv) (hs : s.ph ≠ .idle) : 64 * nblk s.len.toNat ≤ s.padCap := by
  have hcap := (h.len_bounds hs).1
  unfold nblk State.padCap
  omega

/-- The invariant gives each micro-operation the addresses and the indices it names. -/
theorem exec_microOp_completes {i : Instr} (h : s.Inv) (hd : decode (.uop s.ph.code) = .ok i) :
    ∃ u, exec i s = .next u := by
  have hs := ph_ne_idle_of_microOp hd
  obtain ⟨hcap, hlt⟩ := h.len_bounds hs
  have hfit := h.blocks_fit hs
  have hroom := s.msgCap_lt_padCap
  obtain ⟨-, hat⟩ := h.countersWf
  have hi := (sequencerAction_eq s.ph).symm.trans (sequencerAction_of_decode hd)
  cases hp : s.ph <;> rw [hp] at hi hat <;> cases hi
  case hInit | cmpInit => exact ⟨_, rfl⟩
  case padCopy => exact ⟨_, execUPadcopy_inRange (hat.trans_le hcap)⟩
  case padMark => exact ⟨_, execUPadmark_inRange (by rw [hat]; omega)⟩
  case padZero => exact ⟨_, execUPadzero_inRange (by omega)⟩
  case padLen => exact ⟨_, execUPadlen_inRange (by omega) (by omega)⟩
  case schLoad => exact ⟨_, execUSchload_inRange (by unfold State.loadAddress; omega) (by omega)⟩
  case schExp => exact ⟨_, execUSchexp_inRange (by omega) (by omega)⟩
  case cmpRound => exact ⟨_, execUCmpround_inRange (by omega)⟩
  case cmpFold =>
    obtain ⟨-, -, hfold⟩ := uCmpfoldFoldsAndClosesTheBlock
    exact (hfold s).imp fun _ ⟨hx, _⟩ => hx

theorem step_sequencer_completes (h : s.Inv) (hn : s.sequencerNext = true) : ∃ u, step s = .next u := by
  by_cases hs : s.ph = .idle
  · exact ⟨_, step_sequencer_idle hn hs⟩
  · obtain ⟨i, hd⟩ := exists_microOp hs
    rw [step_sequencer_run hn hd]
    exact exec_microOp_completes (s := s.advance) h hd

theorem step_host_completes {w : HostWord} {rest : List Input} (hin : s.inputs = .host w :: rest)
    (hw : w.hop ≤ 8) : ∃ u, step s = .next u := by
  obtain ⟨i, hd⟩ := decodeHost_of_hop_le hw
  rw [hostStepRunsDecodedInstruction s w rest i hin hd]
  exact exec_host_completes (decodeHost_isHost hd) _

end

/-- Settles O7: the phase alone selects the sequencer's action. -/
theorem sequencerStepRunsThePhase : Obligations.SequencerStepRunsThePhase :=
  fun _ hn => ⟨fun _ => step_sequencer_run hn, step_sequencer_idle hn⟩

/-- Settles O26: the eight words are the rows of the ROM's first table. -/
theorem uHinitLoadsTheInitialHash : Obligations.UHinitLoadsTheInitialHash := ⟨rfl, rfl, fun _ => rfl⟩

/-- Settles O48: each agent's step completes, but for a host code that has no row. -/
theorem stepNeverFaults : Obligations.StepNeverFaults := by
  intro s h
  rcases s.next_cases with hn | hr | ⟨w, rest, hin⟩
  · exact .inl (step_sequencer_completes h hn)
  · exact .inl ⟨_, step_reset hr⟩
  · by_cases hw : w.hop ≤ 8
    · exact .inl (step_host_completes hin hw)
    · have hw9 : 9 ≤ w.hop := by bv_omega
      exact .inr ⟨w, rest, hin, hw9, reservedHostCodeIsRefused s w rest hin hw9⟩

/-! ### The phase graph -/

section
variable {s u : State}

/-- Code 3 and no other is the start (30 R87). -/
theorem decodeHost_hstart_iff {w : HostWord} {i : Instr} (hd : decode (.host w) = .ok i) :
    w.hop = 3 ↔ i = .hstart := by
  obtain ⟨hop, a, d⟩ := w
  simp only [decode, decodeHost] at hd
  split at hd <;> cases hd <;> simp

/-- The start that is accepted opens the run (44 R218). -/
theorem exec_hstart_ph (hx : exec .hstart s = .next u) :
    u.ph = if s.ph = .idle ∧ s.inputTooLarge = false then .hInit else s.ph := by
  by_cases hs : s.ph = .idle
  · rw [exec_hstart, s.gated_idle _ (s.not_busy_iff.2 hs)] at hx
    cases hx
    cases hl : s.inputTooLarge with
    | true => rw [s.start_tooLarge hl]; simp
    | false => rw [s.start_accepted hl]; simp [hs]
  · rw [exec_host_busy rfl hs hx, if_neg fun ⟨hidle, _⟩ => hs hidle]

theorem exec_host_keeps_ph {i : Instr} (hi : i.isHost = true) (hne : i ≠ .hstart) (hx : exec i s = .next u) :
    u.ph = s.ph := by
  rcases exec_host_cases hi hx with ⟨v, d, rfl⟩ | ⟨-, ⟨p, d, -, rfl⟩ | ⟨n, -, rfl⟩ | ⟨rfl, -⟩⟩
  · rfl
  · simp
  · rfl
  · exact absurd rfl hne

end

/-- Settles O54: the sequencer's arm row by row, and the host's by whether it starts a run. -/
theorem phaseGraphTransitions : Obligations.PhaseGraphTransitions := by
  intro s u h
  refine ⟨fun hn => ?_, fun hr => ?_, fun hn hr => ?_⟩
  · by_cases hs : s.ph = .idle
    · cases (step_sequencer_idle hn hs).symm.trans h
      simp only [hs]
      exact ⟨hs, rfl, rfl, rfl⟩
    · obtain ⟨i, hd⟩ := exists_microOp hs
      rw [step_sequencer_run hn hd] at h
      have hi := (sequencerAction_eq s.ph).symm.trans (sequencerAction_of_decode hd)
      cases hp : s.ph <;> rw [hp] at hi <;> cases hi
      case neg.hInit => cases h; exact ⟨rfl, rfl, rfl, rfl⟩
      case neg.padCopy => obtain ⟨-, rfl⟩ := execUPadcopy_next h; exact ⟨rfl, rfl, rfl, rfl⟩
      case neg.padMark => obtain ⟨-, rfl⟩ := execUPadmark_next h; exact ⟨rfl, rfl, rfl, rfl⟩
      case neg.padZero => obtain ⟨-, rfl⟩ := execUPadzero_next h; exact ⟨rfl, rfl, rfl, rfl⟩
      case neg.padLen => obtain ⟨-, -, rfl⟩ := execUPadlen_next h; exact ⟨rfl, rfl, rfl, rfl⟩
      case neg.schLoad => obtain ⟨-, -, rfl⟩ := execUSchload_next h; exact ⟨rfl, rfl, rfl, rfl⟩
      case neg.schExp => obtain ⟨-, -, rfl⟩ := execUSchexp_next h; exact ⟨rfl, rfl, rfl, rfl⟩
      case neg.cmpInit => cases h; exact ⟨rfl, rfl, rfl, rfl⟩
      case neg.cmpRound => obtain ⟨-, rfl⟩ := execUCmpround_next h; exact ⟨rfl, rfl, rfl, rfl⟩
      case neg.cmpFold =>
        obtain rfl := execUCmpfold_next h
        refine ⟨rfl, rfl, ?_⟩
        by_cases hlast : s.blk.toNat + 1 = s.pp.toNat / 64
        · simp [hlast]
        · simp [hlast]
  · cases (step_reset hr).symm.trans h
    rfl
  · obtain ⟨w, rest, hin⟩ := (s.next_cases.resolve_left (by simp [hn])).resolve_left (by simp [hr])
    obtain ⟨i, hd, hx⟩ := step_host_next hin h
    have hi := decodeHost_isHost hd
    have hstart : s.startNext = true ↔ i = .hstart := by
      simp [State.startNext, hin, ← decodeHost_hstart_iff hd]
    have hframe := exec_host_frame hi hx
    refine ⟨by rw [hframe]; rfl, by rw [hframe]; rfl, by rw [hframe]; rfl, ?_⟩
    by_cases hne : i = .hstart
    · subst hne
      rw [exec_hstart_ph hx]
      simp only [hstart, true_and]
      rfl
    · rw [exec_host_keeps_ph hi hne hx, if_neg fun ⟨hnext, _⟩ => hne (hstart.1 hnext)]
      rfl

end Sys2Proof.Machine
end

section
/-! The steps of a run still to come (44 R203, 70 R288): O58. -/

namespace Sys2Proof.Machine

section
variable {s u : State}

/-- The count is of the control state alone (44 R203). -/
theorem State.stepsLeft_congr (hlen : u.len = s.len) (hph : u.ph = s.ph) (hpp : u.pp = s.pp)
    (hblk : u.blk = s.blk) (ht : u.t = s.t) : u.stepsLeft = s.stepsLeft := by
  rw [State.stepsLeft, State.stepsLeft, hlen, hph, hpp, hblk, ht]

theorem State.Inv.stepsLeft_eq_zero_iff (h : s.Inv) : s.stepsLeft = 0 ↔ s.ph = .idle := by
  have hn := nblk_bounds s.len.toNat
  obtain ⟨-, hat⟩ := h.countersWf
  cases hp : s.ph <;> rw [hp] at hat <;>
    simp only [State.stepsLeft, runLength, hp, reduceCtorEq, iff_false] <;> omega

theorem State.resetNext_of_sequencerNext (hn : s.sequencerNext = true) : s.resetNext = false := by
  unfold State.sequencerNext at hn
  unfold State.resetNext
  split
  · simp_all only [Bool.false_eq_true]
  · rfl

/-- Each row of the phase graph takes one off the count, whichever way its condition falls: where the phase
moves on, the count of the phase left has come down to that of the phase entered. -/
theorem step_sequencer_stepsLeft (h : s.Inv) (hs : s.ph ≠ .idle) (hn : s.sequencerNext = true)
    (hstep : step s = .next u) : u.stepsLeft + 1 = s.stepsLeft := by
  obtain ⟨-, hlen⟩ := messageIsFixedDuringARun s u hs (State.resetNext_of_sequencerNext hn) hstep
  obtain ⟨hgraph, -, -⟩ := phaseGraphTransitions s u hstep
  have hrow := hgraph hn
  have hbounds := nblk_bounds s.len.toNat
  have hz := length_add_zfill s.len.toNat
  have hz63 := zfill_le s.len.toNat
  obtain ⟨-, hlt⟩ := h.len_bounds hs
  obtain ⟨-, hat⟩ := h.countersWf
  cases hp : s.ph <;> rw [hp] at hrow hat
  case idle => exact absurd hp hs
  case hInit | padCopy | padMark | padZero | schLoad | schExp | cmpRound =>
    obtain ⟨hph, hpp, hblk, ht⟩ := hrow
    split at hph <;>
      · simp only [State.stepsLeft, runLength, hp, hph, hlen, hpp, hblk, ht]
        bv_omega
  case padLen | cmpInit =>
    obtain ⟨hph, -, hblk, ht⟩ := hrow
    simp only [State.stepsLeft, hp, hph, hlen, hblk, ht]
    bv_omega
  case cmpFold =>
    obtain ⟨-, hblk, hend⟩ := hrow
    split at hend <;>
      · obtain ⟨hph, ht⟩ := hend
        simp only [State.stepsLeft, hp, hph, hlen, hblk, ht]
        bv_omega

/-- While busy a host operation moves neither the phase nor a counter nor the length. -/
theorem step_host_stepsLeft (hs : s.ph ≠ .idle) (hn : s.sequencerNext = false) (hr : s.resetNext = false)
    (hstep : step s = .next u) : u.stepsLeft = s.stepsLeft := by
  obtain ⟨-, hlen⟩ := messageIsFixedDuringARun s u hs hr hstep
  obtain ⟨-, -, hhost⟩ := phaseGraphTransitions s u hstep
  obtain ⟨hpp, hblk, ht, hph⟩ := hhost hn hr
  rw [if_neg fun ⟨_, hidle, _⟩ => hs hidle] at hph
  exact State.stepsLeft_congr hlen hph hpp hblk ht

end

/-- Settles O58: row by row of the phase graph. -/
theorem stepsLeftCountsDown : Obligations.StepsLeftCountsDown := by
  refine ⟨fun s => State.Inv.stepsLeft_eq_zero_iff, fun s h hs hn => ?_, fun s u => step_host_stepsLeft,
    fun s hs hcap => ⟨_, exec_hstart_accepted hs hcap, rfl⟩⟩
  obtain ⟨u, hstep⟩ := step_sequencer_completes h hn
  exact ⟨u, hstep, step_sequencer_stepsLeft h hs hn hstep⟩

end Sys2Proof.Machine
end

section
/-! A whole run and the host program `DIGEST` (44 R210, R211, 30 R95): O60. -/

namespace Sys2Proof.Machine

/-- `n` sequencer steps of the run on `m` are still to come; with none left it is over. -/
def State.Running (s : State) (m : List Byte) (n : Nat) : Prop :=
  s.Inv ∧ s.stepsLeft = n ∧ (s.Computing m ∨ s.Finished m)

section
variable {s u : State} {m : List Byte} {n : Nat}

/-! ### What is left of a run, and its two kinds of step -/

theorem State.Computing.busy (h : s.Computing m) : s.ph ≠ .idle := by
  obtain ⟨-, p, -, hc⟩ := h
  exact hc.busy

theorem State.Running.finished (h : s.Running m 0) : s.Finished m := by
  obtain ⟨hinv, hleft, hrun⟩ := h
  exact hrun.resolve_left fun hc => hc.busy (hinv.stepsLeft_eq_zero_iff.1 hleft)

theorem State.Running.computing (h : s.Running m n) (hn : 0 < n) : s.Computing m := by
  obtain ⟨hinv, hleft, hrun⟩ := h
  refine hrun.resolve_right fun ⟨hidle, _⟩ => ?_
  have := hinv.stepsLeft_eq_zero_iff.2 hidle
  omega

theorem State.Running.busy_iff (h : s.Running m n) : s.busy = true ↔ 0 < n := by
  obtain ⟨hinv, rfl, -⟩ := h
  rw [s.busy_iff, Nat.pos_iff_ne_zero, Ne, Ne, hinv.stepsLeft_eq_zero_iff]

/-- A step of a run, with the number of steps it leaves. -/
theorem State.Running.of_step {k : Nat} (h : s.Running m n) (hn : 0 < n) (hr : s.resetNext = false)
    (hstep : step s = .next u) (hleft : u.stepsLeft = k) : u.Running m k := by
  have hc := h.computing hn
  obtain ⟨hinv, -, -⟩ := h
  obtain ⟨-, hkeep⟩ := runKeepsComputingTheDigest
  exact ⟨stepKeepsTheInvariant s u hinv hstep, hleft, hkeep s u m hinv hc hr hstep⟩

/-- A sequencer step takes one off (44 R203). -/
theorem State.Running.step_sequencer (h : s.Running m (n + 1)) (hn : s.sequencerNext = true) :
    ∃ u, step s = .next u ∧ u.Running m n := by
  have hs := (h.computing n.succ_pos).busy
  have ⟨hinv, hleft, _⟩ := h
  obtain ⟨u, hstep⟩ := step_sequencer_completes hinv hn
  have hdown := step_sequencer_stepsLeft hinv hs hn hstep
  exact ⟨u, hstep, h.of_step n.succ_pos (State.resetNext_of_sequencerNext hn) hstep (by omega)⟩

/-- A host operation takes none (44 R213). -/
theorem State.Running.step_host {w : HostWord} {rest : List Input} (h : s.Running m n) (hn : 0 < n)
    (hin : s.inputs = .host w :: rest) (hw : w.hop ≤ 8) : ∃ u, step s = .next u ∧ u.Running m n := by
  have hs := (h.computing hn).busy
  have ⟨_, hleft, _⟩ := h
  have hseq : s.sequencerNext = false := by rw [State.sequencerNext, hin]
  have hr : s.resetNext = false := by rw [State.resetNext, hin]
  obtain ⟨u, hstep⟩ := step_host_completes hin hw
  exact ⟨u, hstep, h.of_step hn hr hstep ((step_host_stepsLeft hs hseq hr hstep).trans hleft)⟩

/-- An accepted start (44 R218) begins a run of `runLength` steps. -/
theorem exec_hstart_running (h : s.Inv) (hs : s.ph = .idle) (hm : s.HoldsMessage m)
    (hcap : m.length ≤ s.cfg.msgCap.val) :
    ∃ u, exec .hstart s = .next u ∧ u.Running m (194 * nblk m.length - 6) := by
  obtain ⟨u, hx, hc⟩ := exec_hstart_computes hs hm hcap
  have ⟨hlen, _⟩ := hm
  cases (exec_hstart_accepted hs (hlen.trans_le hcap)).symm.trans hx
  refine ⟨_, hx, exec_host_keeps_inv h rfl hx, ?_, .inl hc⟩
  rw [← hlen]
  rfl

theorem run_steps_pos (l : Nat) : 0 < 194 * nblk l - 6 := by
  have := nblk_bounds l
  omega

/-! ### The listed moves of a run -/

/-- Every step takes the next of the coming moves off the list, and no operation touches the others. -/
theorem step_inputs (h : step s = .next u) : u.inputs = s.inputs.tail := by
  rcases step_next_cases h with ⟨w, rest, i, -, hd, hx⟩ | ⟨-, i, hd, hx⟩ | ⟨-, -, rfl⟩ | ⟨rest, -, rfl⟩
  · rw [exec_host_frame (decodeHost_isHost hd) hx]; rfl
  · rw [exec_microOp_frame (decodeUop_not_isHost hd) hx]; rfl
  · rfl
  · rfl

/-- The listed moves of a run take off the sequencer steps among them; the run is not over after them. -/
theorem State.Running.run_moves {moves rest : List Input} (hn : 0 < n)
    (h : s.Running m (n + moves.count .sequencer)) (hin : s.inputs = moves ++ rest)
    (hquiet : quietInputs moves) (k : Nat) :
    ∃ u : State, Sys2Proof.core.run (moves.length + k) s = Sys2Proof.core.run k u ∧ u.Running m n ∧
      u.inputs = rest := by
  induction moves generalizing s with
  | nil => exact ⟨s, by rw [List.length_nil, Nat.zero_add], h, hin⟩
  | cons x moves ih =>
    obtain ⟨hx, hmoves⟩ := List.forall_mem_cons.1 hquiet
    have afterStep {u : State} (hstep : step s = .next u) (hu : u.Running m (n + moves.count .sequencer)) :
        ∃ v : State, Sys2Proof.core.run ((x :: moves).length + k) s = Sys2Proof.core.run k v ∧ v.Running m n ∧
          v.inputs = rest := by
      have hins : u.inputs = moves ++ rest := by rw [step_inputs hstep, hin]; rfl
      rw [List.length_cons, Nat.add_right_comm, run_step_succ hstep]
      exact ih hu hins hmoves
    cases x with
    | host w =>
      have hother : Input.host w ≠ .sequencer := nofun
      rw [List.count_cons_of_ne hother] at h
      obtain ⟨u, hstep, hu⟩ := h.step_host (by omega) hin hx
      exact afterStep hstep hu
    | sequencer =>
      rw [List.count_cons_self] at h
      obtain ⟨u, hstep, hu⟩ := State.Running.step_sequencer h (by rw [State.sequencerNext, hin]; rfl)
      exact afterStep hstep hu
    | reset => exact hx.elim

/-! ### The steps granted before each read of `WAIT` -/

theorem State.Running.grant (h : s.Running m n) (k : Nat) : ∃ u, s.grant k = .next u ∧ u.Running m (n - k) := by
  induction k generalizing s n with
  | zero => exact ⟨s, rfl, h⟩
  | succ k ih =>
    cases n with
    | zero =>
      have hidle : s.busy = false := by simpa using h.busy_iff
      exact ⟨s, State.grant_idle hidle _, by rwa [Nat.zero_sub]⟩
    | succ n =>
      have hgiven : State.Running { s with inputs := .sequencer :: s.inputs } m (n + 1) := h
      obtain ⟨u, hstep, hu⟩ := hgiven.step_sequencer rfl
      rw [State.grant_busy (h.busy_iff.2 n.succ_pos) hstep, Nat.add_sub_add_right]
      exact ih hu

theorem State.Running.answer (h : s.Running m n) (v : Dword) : (s.answer v).Running m n := h

/-- The reads of `WAIT` end where the steps before them suffice, and then the run is over. -/
theorem State.Running.wait_true {gaps : List Nat} (h : s.Running m n) (hn : 0 < n) (hsum : n ≤ gaps.sum) :
    ∃ u, s.wait gaps = .next (true, u) ∧ u.Running m 0 := by
  induction gaps generalizing s n with
  | nil => exact absurd hsum (Nat.not_le_of_lt hn)
  | cons k gaps ih =>
    obtain ⟨u, hgrant, hu⟩ := h.grant k
    rw [List.sum_cons] at hsum
    rcases Nat.eq_zero_or_pos (n - k) with h0 | hpos
    · rw [h0] at hu
      have hidle : u.busy = false := by simpa using hu.busy_iff
      exact ⟨_, State.wait_ends hgrant hidle gaps, hu.answer _⟩
    · rw [State.wait_repeats hgrant (hu.busy_iff.2 hpos)]
      exact ih (hu.answer _) hpos (by omega)

/-- The reads of `WAIT` find the core busy where the steps before them do not suffice. -/
theorem State.Running.wait_false {gaps : List Nat} (h : s.Running m n) (hsum : gaps.sum < n) :
    ∃ u, s.wait gaps = .next (false, u) := by
  induction gaps generalizing s n with
  | nil => exact ⟨s, rfl⟩
  | cons k gaps ih =>
    obtain ⟨u, hgrant, hu⟩ := h.grant k
    rw [List.sum_cons] at hsum
    rw [State.wait_repeats hgrant (hu.busy_iff.2 (by omega))]
    exact ih (hu.answer _) (by omega)

/-! ### `DIGEST` -/

theorem State.issue_hstart (s : State) : s.issue ⟨3, 0, 0⟩ = exec .hstart s := State.issue_eq rfl

theorem State.issue_hrdStatus (s : State) : s.issue ⟨4, 0, 0⟩ = .next (s.answer s.status) :=
  State.issue_eq (i := .hrdStatus) rfl

theorem thenDo_eq_next {α β : Type} {r : Host.Outcome α Fault Refusal} {f : α → Host.Outcome β Fault Refusal}
    {b : β} (h : thenDo r f = .next b) : ∃ a, r = .next a ∧ f a = .next b := by
  cases r with
  | next a => exact ⟨a, rfl, h⟩
  | fault e => cases h
  | refused e => cases h

theorem State.ask_keeps_inv {ws : List HostWord} {vs : List Dword} (h : s.Inv)
    (hask : s.ask ws = .next (vs, u)) : u.Inv := by
  induction ws generalizing s vs with
  | nil => cases hask; exact h
  | cons w ws ih =>
    obtain ⟨v, hissue, hrest⟩ := thenDo_eq_next hask
    obtain ⟨r, hr, hlast⟩ := thenDo_eq_next hrest
    cases hlast
    exact ih (stepKeepsTheInvariant { s with inputs := .host w :: s.inputs } v h hissue) hr

/-- `LOADMSG` while idle, before the rest of `DIGEST`: the core is idle still and `LEN` is the message's
length; where the message fits, `MSG` holds it. -/
theorem State.digest_loads (h : s.Inv) (hs : s.ph = .idle) (hm : m.length < 2 ^ 64) (gaps : List Nat) :
    ∃ u : State, s.digest m gaps = u.startAndRead gaps ∧ u.Inv ∧ u.ph = .idle ∧ u.cfg = s.cfg ∧
      u.len.toNat = m.length ∧ (m.length ≤ s.cfg.msgCap.val → u.HoldsMessage m) := by
  obtain ⟨ops, vs, u, hops, hask, hu, hlen, hmsg⟩ := State.ask_loadMsgOps hs hm
  refine ⟨u, ?_, State.ask_keeps_inv h hask, by rw [hu]; exact hs, by rw [hu], hlen,
    fun hcap => ⟨hlen, fun p hp => hmsg p hp (hp.trans_le hcap)⟩⟩
  rw [State.digest, hops]
  show thenDo (s.ask ops) _ = _
  rw [hask, thenDo_next]

/-- A finished run passes the check, and the 32 bytes read are its digest. -/
theorem State.Finished.finishDigest (h : s.Finished m) :
    ∃ u d, sha256 m = some d ∧ (s.answer s.status).finishDigest s.status = .next (.digest d, u) := by
  obtain ⟨-, hvalid, herr, d, hd, hdig⟩ := h
  obtain ⟨bs, w, hread, hlen, hbs⟩ := State.readDigest_valid (s := s.answer s.status) hvalid
  have hbytes : bs = d := by
    refine List.ext_getElem? fun j => ?_
    rcases Nat.lt_or_ge j 32 with hj | hj
    · exact (hbs j hj).trans (hdig j hj)
    · rw [List.getElem?_eq_none (hlen.trans_le hj), List.getElem?_eq_none ((sha256_length hd).trans_le hj)]
  refine ⟨{ s.answer s.status with hrdata := w }, d, hd, ?_⟩
  rw [State.finishDigest, s.status_err, herr, if_neg Bool.false_ne_true, s.status_valid, hvalid, if_pos rfl,
    hread, hbytes, thenDo_next]

/-- A rejected start fails the check (30 R95). -/
theorem State.finishDigest_err (h : s.err = true) (v : Dword) :
    (s.answer v).finishDigest s.status = .next (.inputTooLarge, s.answer v) := by
  rw [State.finishDigest, s.status_err, h, if_pos rfl]

/-- After an accepted start, `DIGEST` is what its `WAIT` and the check come to. -/
theorem State.startAndRead_waited {v : State} {gaps : List Nat} (hx : exec .hstart s = .next u)
    (hwait : u.wait gaps = .next (true, v)) :
    s.startAndRead gaps = (v.answer v.status).finishDigest v.status := by
  rw [State.startAndRead, s.issue_hstart, hx, thenDo_next, hwait, thenDo_next, if_pos rfl,
    v.issue_hrdStatus, thenDo_next]
  rfl

theorem State.startAndRead_stillWaiting {v : State} {gaps : List Nat} (hx : exec .hstart s = .next u)
    (hwait : u.wait gaps = .next (false, v)) : s.startAndRead gaps = .next (.stillWaiting, v) := by
  rw [State.startAndRead, s.issue_hstart, hx, thenDo_next, hwait, thenDo_next, if_neg Bool.false_ne_true]

/-- A start that does not fit leaves the core idle, so the first read ends `WAIT` (44 R218, 60 R244). -/
theorem State.startAndRead_inputTooLarge {gaps : List Nat} (hs : s.ph = .idle)
    (hlarge : s.cfg.msgCap.val < s.len.toNat) (hgaps : gaps ≠ []) :
    ∃ u, s.startAndRead gaps = .next (.inputTooLarge, u) := by
  have hx := exec_hstart_rejected hs (s.inputTooLarge_iff.2 (.inr hlarge))
  have hidle : (s.raiseInputTooLarge.answer 0).busy = false := (State.not_busy_iff _).2 hs
  obtain ⟨k, gaps, rfl⟩ := List.exists_cons_of_ne_nil hgaps
  have hwait := State.wait_ends (State.grant_idle hidle k) hidle gaps
  exact ⟨_, (State.startAndRead_waited hx hwait).trans (State.finishDigest_err rfl _)⟩

end

/-- 44 R210: the bit length of such a message does not fit its field. -/
theorem sha256_eq_none {m : List Byte} (h : 2 ^ 61 ≤ m.length) : sha256 m = none := by
  refine Option.eq_none_iff_forall_ne_some.2 fun d hd => ?_
  have := (exists_sha256_iff m).1 ⟨d, hd⟩
  omega

/-- 44 R211: the start, the listed moves, and the last sequencer step. -/
theorem run_computes_sha256 {s : State} {m : List Byte} {a d : Dword} {moves tail : List Input} (h : s.Inv)
    (hs : s.ph = .idle) (hm : s.HoldsMessage m) (hcap : m.length ≤ s.cfg.msgCap.val)
    (hin : s.inputs = .host ⟨3, a, d⟩ :: (moves ++ .sequencer :: tail)) (hquiet : quietInputs moves)
    (hcount : moves.count .sequencer + 1 = 194 * nblk m.length - 6) :
    ∃ u : State, Sys2Proof.core.run (1 + moves.length + 1) s = .next u ∧ u.Finished m ∧ u.inputs = tail := by
  obtain ⟨u, hx, hu⟩ := exec_hstart_running (s := { s with inputs := moves ++ .sequencer :: tail }) h hs hm hcap
  have hstart := (hostStepRunsDecodedInstruction s _ _ .hstart hin rfl).trans hx
  have huin : u.inputs = moves ++ .sequencer :: tail := by rw [step_inputs hstart, hin]; rfl
  rw [← hcount, Nat.add_comm] at hu
  obtain ⟨v, hrun, hv, hvin⟩ := hu.run_moves Nat.one_pos huin hquiet 1
  have hnext : v.sequencerNext = true := by rw [State.sequencerNext, hvin]
  obtain ⟨w, hlast, hw⟩ := State.Running.step_sequencer hv hnext
  refine ⟨w, ?_, hw.finished, by rw [step_inputs hlast, hvin]; rfl⟩
  rw [Nat.add_assoc, Nat.add_comm 1, run_step_succ hstart, hrun, run_step_succ hlast]
  rfl

/-- Settles O60: a run counts its steps down to the finished state, and `DIGEST` is such a run between
`LOADMSG` and `READDIGEST`. -/
theorem runComputesSha256 : Obligations.RunComputesSha256 := by
  refine ⟨fun s m a d moves tail => run_computes_sha256, fun m => sha256_eq_none,
    fun s m gaps h hs => ⟨fun hcap hsum => ?_, fun hcap hsum => ?_, fun hlarge h64 hgaps => ?_⟩⟩
  · obtain ⟨u, hload, hinv, hidle, hcfg, -, hm⟩ := State.digest_loads (m := m) h hs (by omega) gaps
    obtain ⟨v, hx, hv⟩ := exec_hstart_running hinv hidle (hm hcap) (hcfg ▸ hcap)
    obtain ⟨w, hwait⟩ := hv.wait_false hsum
    exact ⟨w, hload.trans (State.startAndRead_stillWaiting hx hwait)⟩
  · obtain ⟨u, hload, hinv, hidle, hcfg, -, hm⟩ := State.digest_loads (m := m) h hs (by omega) gaps
    obtain ⟨v, hx, hv⟩ := exec_hstart_running hinv hidle (hm hcap) (hcfg ▸ hcap)
    obtain ⟨w, hwait, hw⟩ := hv.wait_true (run_steps_pos _) hsum
    obtain ⟨x, d, hd, hread⟩ := hw.finished.finishDigest
    exact ⟨x, d, hd, hload.trans ((State.startAndRead_waited hx hwait).trans hread)⟩
  · obtain ⟨u, hload, -, hidle, hcfg, hlen, -⟩ := State.digest_loads h hs h64 gaps
    rw [hload]
    exact State.startAndRead_inputTooLarge hidle (by rw [hcfg, hlen]; exact hlarge) hgaps

end Sys2Proof.Machine
end

section
/-! The length test against the capacity (60 R241, R242, 00 R6): O20. -/

namespace Sys2Proof.Machine

/-- The capacity alone decides, since it is below 2^61 (00 R6, 60 R242). -/
theorem State.inputTooLarge_iff_msgCap_lt (s : State) :
    s.inputTooLarge = true ↔ s.cfg.msgCap.val < s.len.toNat := by
  refine ⟨fun hlarge => ?_, fun hcap => s.inputTooLarge_iff.2 (.inr hcap)⟩
  by_contra hcap
  exact absurd hlarge (by simp [State.inputTooLarge_eq_false (Nat.le_of_not_lt hcap)])

/-- Settles O20: every capacity is below 2^61, so a length of 2^61 or more is above it. -/
theorem inputTooLargeIsExact : Obligations.InputTooLargeIsExact := by
  refine fun s => ⟨fun hlen => ?_, s.inputTooLarge_iff_msgCap_lt⟩
  exact s.inputTooLarge_iff_msgCap_lt.2 (s.cfg.msgCap.isLt.trans_le hlen)

end Sys2Proof.Machine
end

section
/-! Reset events (70 R270, R271): O10 and O11. -/

namespace Sys2Proof.Machine

theorem State.resetNext_of_inputs {s : State} {rest : List Input} (hin : s.inputs = .reset :: rest) :
    s.resetNext = true := by
  rw [State.resetNext, hin]

/-- With the four flags clear `STATUS` is 0 (10 R27, R32). -/
@[simp] theorem State.resetEvent_status (s : State) : s.resetEvent.status = 0 := by
  rw [State.status, s.resetEvent.not_busy_iff.2 rfl, s.resetEvent_valid, s.resetEvent_err, s.resetEvent_ecause]
  decide

/-- Settles O10: the reset event writes each of the values named, and the step takes it off the list. -/
theorem resetEventClearsControlState : Obligations.ResetEventClearsControlState := by
  intro s rest hin
  refine ⟨_, step_reset (State.resetNext_of_inputs hin), rfl, rfl, rfl, rfl, rfl,
    State.resetEvent_status _, rfl, ?_, fun _ => ⟨rfl, rfl⟩⟩
  rw [State.resetEvent_inputs, State.advance_inputs, hin, List.tail_cons]

/-- The parameter, the last answer, the coming moves and the count of draws are all a reset event reads. -/
theorem State.resetEvent_congr {s u : State} (hcfg : s.cfg = u.cfg) (hanswer : s.hrdata = u.hrdata)
    (hin : s.inputs = u.inputs) (hdraws : s.draws = u.draws) : s.resetEvent = u.resetEvent := by
  simp only [State.resetEvent, hcfg, hanswer, hin, hdraws]

/-- Settles O11: the two cores agree in everything the reset event reads. -/
theorem resetForgetsTheInterruptedRun : Obligations.ResetForgetsTheInterruptedRun := by
  intro s u rest hs hu hcfg hanswer hdraws
  have hin : s.advance.inputs = u.advance.inputs := by simp only [State.advance_inputs, hs, hu]
  rw [step_reset (State.resetNext_of_inputs hs), step_reset (State.resetNext_of_inputs hu),
    State.resetEvent_congr (s := s.advance) (u := u.advance) hcfg hanswer hin hdraws]

end Sys2Proof.Machine
end

section
/-! When `VALID` rises and falls, and how a run ends (70 R277, R282): O52 and O53. -/

namespace Sys2Proof.Machine

section
variable {s u : State} {i : Instr}

/-! ### Host operations -/

/-- A start, accepted or rejected, lowers `VALID` (44 R218). -/
@[simp] theorem State.start_valid (s : State) : s.start.valid = false := by
  cases hl : s.inputTooLarge with
  | true => rw [s.start_tooLarge hl, s.raiseInputTooLarge_valid]
  | false => rw [s.start_accepted hl, s.acceptStart_valid]

theorem exec_host_keeps_valid (hi : i.isHost = true) (hne : i ≠ .hstart) (hx : exec i s = .next u) :
    u.valid = s.valid := by
  rcases exec_host_cases hi hx with ⟨v, d, rfl⟩ | ⟨-, ⟨p, d, -, rfl⟩ | ⟨n, -, rfl⟩ | ⟨rfl, -⟩⟩
  · rfl
  · simp
  · rfl
  · exact absurd rfl hne

/-- No host operation raises `VALID`: a start lowers it while idle and is dropped while busy. -/
theorem valid_of_exec_host (hi : i.isHost = true) (hx : exec i s = .next u) (hu : u.valid = true) :
    s.valid = true := by
  rcases exec_host_cases hi hx with ⟨v, d, rfl⟩ | ⟨-, ⟨p, d, -, rfl⟩ | ⟨n, -, rfl⟩ | ⟨-, rfl⟩⟩
  · exact hu
  · simpa using hu
  · exact hu
  · simp at hu

/-! ### Micro-operations -/

theorem ite_ne_idle {c : Prop} [Decidable c] {a b : Phase} (ha : a ≠ .idle) (hb : b ≠ .idle) :
    (if c then a else b) ≠ .idle := by
  split
  · exact ha
  · exact hb

/-- Every micro-operation but the fold stays in the run and leaves `VALID` (44 R202). -/
theorem exec_microOp_stays_in_run (hd : decode (.uop s.ph.code) = .ok i) (hfold : s.ph ≠ .cmpFold)
    (hx : exec i s = .next u) : u.valid = s.valid ∧ u.ph ≠ .idle := by
  have hi := (sequencerAction_eq s.ph).symm.trans (sequencerAction_of_decode hd)
  cases hp : s.ph <;> rw [hp] at hi <;> cases hi
  case hInit => cases hx; exact ⟨rfl, ite_ne_idle nofun nofun⟩
  case padCopy => obtain ⟨-, rfl⟩ := execUPadcopy_next hx; exact ⟨rfl, ite_ne_idle nofun nofun⟩
  case padMark => obtain ⟨-, rfl⟩ := execUPadmark_next hx; exact ⟨rfl, ite_ne_idle nofun nofun⟩
  case padZero => obtain ⟨-, rfl⟩ := execUPadzero_next hx; exact ⟨rfl, ite_ne_idle nofun nofun⟩
  case padLen => obtain ⟨-, -, rfl⟩ := execUPadlen_next hx; exact ⟨rfl, nofun⟩
  case schLoad => obtain ⟨-, -, rfl⟩ := execUSchload_next hx; exact ⟨rfl, ite_ne_idle nofun nofun⟩
  case schExp => obtain ⟨-, -, rfl⟩ := execUSchexp_next hx; exact ⟨rfl, ite_ne_idle nofun nofun⟩
  case cmpInit => cases hx; exact ⟨rfl, nofun⟩
  case cmpRound => obtain ⟨-, rfl⟩ := execUCmpround_next hx; exact ⟨rfl, ite_ne_idle nofun nofun⟩
  case cmpFold => exact absurd hp hfold

/-- The fold raises `VALID` or ends the run at the last block only, and there it does both (43 R179). -/
theorem execUCmpfold_ends_run (hx : execUCmpfold s = .next u)
    (hend : s.valid = false ∧ u.valid = true ∨ u.ph = .idle) :
    s.blk.toNat + 1 = s.pp.toNat / 64 ∧ u.valid = true ∧ u.ph = .idle := by
  obtain rfl := execUCmpfold_next hx
  by_cases hlast : s.blk.toNat + 1 = s.pp.toNat / 64
  · simp [hlast]
  · rcases hend with ⟨hs, hu⟩ | hidle
    · simp [hlast, hs] at hu
    · simp [hlast] at hidle

/-- The micro-operation that raises `VALID` or ends the run is the fold of the last block. -/
theorem exec_microOp_ends_run (hd : decode (.uop s.ph.code) = .ok i) (hx : exec i s = .next u)
    (hend : s.valid = false ∧ u.valid = true ∨ u.ph = .idle) :
    s.ph = .cmpFold ∧ s.blk.toNat + 1 = s.pp.toNat / 64 ∧ u.valid = true ∧ u.ph = .idle := by
  by_cases hfold : s.ph = .cmpFold
  · rw [hfold] at hd
    cases hd
    exact ⟨hfold, execUCmpfold_ends_run hx hend⟩
  · obtain ⟨hvalid, hph⟩ := exec_microOp_stays_in_run hd hfold hx
    rcases hend with ⟨hs, hu⟩ | hidle
    · simp [hvalid, hs] at hu
    · exact absurd hidle hph

end

/-- Settles O52: of all steps only the fold of the last block raises `VALID` or ends a run. -/
theorem validRisesOnlyAtTheLastFold : Obligations.ValidRisesOnlyAtTheLastFold := by
  intro s u h hend
  rcases step_next_cases h with ⟨w, rest, i, -, hd, hx⟩ | ⟨hn, i, hd, hx⟩ | ⟨-, hidle, rfl⟩ | ⟨rest, hin, rfl⟩
  · have hi := decodeHost_isHost hd
    rcases hend with ⟨hs, hu⟩ | ⟨hbusy, hidle, -⟩
    · exact absurd (valid_of_exec_host hi hx hu) (by simp [hs])
    · rw [exec_host_busy (s := s.advance) hi hbusy hx] at hidle
      exact absurd hidle hbusy
  · exact ⟨hn, exec_microOp_ends_run (s := s.advance) hd hx (hend.imp_right fun ⟨_, hidle, _⟩ => hidle)⟩
  · rcases hend with ⟨hs, hu⟩ | ⟨hbusy, -, -⟩
    · exact absurd hu (by simp [hs])
    · exact absurd hidle hbusy
  · rcases hend with ⟨-, hu⟩ | ⟨-, -, hr⟩
    · cases hu
    · exact absurd (State.resetNext_of_inputs hin) (by simp [hr])

/-- `VALID = 1` only while idle (10 R28). -/
theorem State.FlagsWf.idle_of_valid {s : State} (h : s.FlagsWf) (hv : s.valid = true) : s.ph = .idle := by
  obtain ⟨hbusy, -⟩ := h
  by_contra hs
  obtain ⟨hclear, -⟩ := hbusy (s.busy_iff.2 hs)
  simp [hv] at hclear

/-- The digest window shows the hash state and nothing else (20 R54). -/
theorem State.dig_congr {s u : State} (h : u.hash = s.hash) (j : Nat) : u.dig j = s.dig j := by
  rw [State.dig, State.dig, h]

/-- Settles O53: while `VALID = 1` the core is idle, and a host operation that is no start leaves `VALID` and
the hash state. -/
theorem digestIsStableUntilTheNextStart : Obligations.DigestIsStableUntilTheNextStart := by
  intro s u hwf hv hstart hr h
  have hidle := hwf.idle_of_valid hv
  rcases step_next_cases h with ⟨w, rest, i, hin, hd, hx⟩ | ⟨-, i, hd, -⟩ | ⟨-, -, rfl⟩ | ⟨rest, hin, -⟩
  · have hi := decodeHost_isHost hd
    have hne : i ≠ .hstart := by
      rw [Ne, ← decodeHost_hstart_iff hd]
      simpa [State.startNext, hin] using hstart
    have hhash : u.hash = s.hash := by rw [exec_host_frame hi hx]; rfl
    exact ⟨(exec_host_keeps_valid hi hne hx).trans hv, State.dig_congr hhash⟩
  · exact absurd hidle (ph_ne_idle_of_microOp hd)
  · exact ⟨hv, fun _ => rfl⟩
  · exact absurd (State.resetNext_of_inputs hin) (by simp [hr])

end Sys2Proof.Machine
end

section
/-! No data reaches the control state (70 R287): O55. -/

namespace Sys2Proof.Machine

/-- The first core with the data of the second: the memories, the schedule, the hash state, the working
variables, the last answer and the count of draws. -/
def State.withData (s u : State) : State :=
  { s with
    msg := u.msg, pad := u.pad, sched := u.sched, hash := u.hash, vars := u.vars
    hrdata := u.hrdata, draws := u.draws }

section
variable {s s' : State} {i : Instr}

/-- The range conditions of a micro-operation, and what it writes to the phase, the counters and the flags,
are about the control state. -/
theorem exec_microOp_withData (u : State) (hi : i.isHost = false) (hx : exec i s = .next s') :
    ∃ u', exec i (s.withData u) = .next u' ∧ u' = s'.withData u' := by
  cases i with
  | hnop | hwrMsg | hwrLen | hstart | hrdStatus | hrdDigest | hrdIv | hrdK | hrdLen => cases hi
  | uHinit | uCmpinit => cases hx; exact ⟨_, rfl, rfl⟩
  | uPadcopy =>
    obtain ⟨hp, rfl⟩ := execUPadcopy_next hx
    exact ⟨_, execUPadcopy_inRange (s := s.withData u) hp, rfl⟩
  | uPadmark =>
    obtain ⟨hp, rfl⟩ := execUPadmark_next hx
    exact ⟨_, execUPadmark_inRange (s := s.withData u) hp, rfl⟩
  | uPadzero =>
    obtain ⟨hp, rfl⟩ := execUPadzero_next hx
    exact ⟨_, execUPadzero_inRange (s := s.withData u) hp, rfl⟩
  | uPadlen =>
    obtain ⟨hfit, hp, rfl⟩ := execUPadlen_next hx
    exact ⟨_, execUPadlen_inRange (s := s.withData u) hfit hp, rfl⟩
  | uSchload =>
    obtain ⟨ha, ht, rfl⟩ := execUSchload_next hx
    exact ⟨_, execUSchload_inRange (s := s.withData u) ha ht, rfl⟩
  | uSchexp =>
    obtain ⟨h16, ht, rfl⟩ := execUSchexp_next hx
    exact ⟨_, execUSchexp_inRange (s := s.withData u) h16 ht, rfl⟩
  | uCmpround =>
    obtain ⟨ht, rfl⟩ := execUCmpround_next hx
    exact ⟨_, execUCmpround_inRange (s := s.withData u) ht, rfl⟩
  | uCmpfold =>
    by_cases hlast : s.blk.toNat + 1 = s.pp.toNat / 64
    · cases (execUCmpfold_last hlast).symm.trans hx
      exact ⟨_, execUCmpfold_last (s := s.withData u) hlast, rfl⟩
    · cases (execUCmpfold_notLast hlast).symm.trans hx
      exact ⟨_, execUCmpfold_notLast (s := s.withData u) hlast, rfl⟩

/-- With other data the sequencer's step is of the same phase, and the data are all it leaves different. -/
theorem step_sequencer_withData (u : State) (hn : s.sequencerNext = true) (hstep : step s = .next s') :
    ∃ u', step (s.withData u) = .next u' ∧ u' = s'.withData u' := by
  by_cases hs : s.ph = .idle
  · cases (step_sequencer_idle hn hs).symm.trans hstep
    exact ⟨_, step_sequencer_idle (s := s.withData u) hn hs, rfl⟩
  · obtain ⟨i, hd⟩ := exists_microOp hs
    rw [step_sequencer_run hn hd] at hstep
    rw [step_sequencer_run (s := s.withData u) hn hd]
    exact exec_microOp_withData u (decodeUop_not_isHost hd) hstep

end

/-- Settles O55: the two cores differ in data only, before the step and after it. -/
theorem controlIgnoresData : Obligations.ControlIgnoresData := by
  intro s u s' hn hu hstep
  obtain ⟨u', hstep', hdata⟩ := step_sequencer_withData u hn hstep
  refine ⟨u', by rw [hu]; exact hstep', ?_⟩
  rw [hdata]
  exact ⟨rfl, rfl, rfl, rfl, rfl, rfl, rfl, rfl⟩

end Sys2Proof.Machine
end

section
/-! Table words and the placing of an instruction (log entry 7): O4 and O8. -/

namespace Sys2Proof

theorem decodeTableWord_eq_some {nbits w : Nat} {i : Instr} :
    decodeTableWord nbits w = some i ↔ decode (tablePacket nbits w) = .ok i := by
  unfold decodeTableWord
  cases decode (tablePacket nbits w) <;> simp

/-- The code in bits 3 to 0 and the buses from bits 8 and 72 on do not overlap, and end at bit 135. -/
theorem tablePacket_packetBits_host {w : HostWord} (h9 : w.hop ≠ 9) (h10 : w.hop ≠ 10) :
    tablePacket 136 (packetBits (.host w)) = .host w := by
  obtain ⟨hop, a, d⟩ := w
  have hhop := hop.isLt
  have ha := a.isLt
  have hd := d.isLt
  have hbits : packetBits (.host ⟨hop, a, d⟩) % 2 ^ 136 = packetBits (.host ⟨hop, a, d⟩) :=
    Nat.mod_eq_of_lt (by simp only [packetBits]; omega)
  have hcode : BitVec.ofNat 4 (packetBits (.host ⟨hop, a, d⟩)) = hop :=
    BitVec.eq_of_toNat_eq (by simp only [packetBits, BitVec.toNat_ofNat]; omega)
  have haddr : BitVec.ofNat 64 (packetBits (.host ⟨hop, a, d⟩) / 2 ^ 8) = a :=
    BitVec.eq_of_toNat_eq (by simp only [packetBits, BitVec.toNat_ofNat]; omega)
  have hdata : BitVec.ofNat 64 (packetBits (.host ⟨hop, a, d⟩) / 2 ^ 72) = d :=
    BitVec.eq_of_toNat_eq (by simp only [packetBits, BitVec.toNat_ofNat]; omega)
  simp only [tablePacket, hbits, hcode, haddr, hdata]
  exact if_neg (not_or.2 ⟨h9, h10⟩)

/-- A host operation is encoded in the host's format, with a code of the table (30 R87). -/
theorem encode_eq_host {i : Instr} (hi : i.isHost = true) : ∃ w, encode i = .host w ∧ w.hop ≤ 8 := by
  have hd := decode_encode i
  cases he : encode i with
  | host w =>
    rw [he] at hd
    exact ⟨w, rfl, of_decide_eq_true (wellFormed_canonical_of_decode hd).1⟩
  | uop c =>
    rw [he] at hd
    exact absurd hi (by simp [Machine.decodeUop_not_isHost hd])

end Sys2Proof

namespace Sys2Proof.Machine

/-- Settles O4: the word's packet is the encoding, since no host operation has the code 9 or 10. -/
theorem tableWordsRoundTrip : Obligations.TableWordsRoundTrip := by
  intro i hi
  obtain ⟨w, he, hhop⟩ := encode_eq_host hi
  have h9 : w.hop ≠ 9 := fun h => absurd (h ▸ hhop) (by decide)
  have h10 : w.hop ≠ 10 := fun h => absurd (h ▸ hhop) (by decide)
  rw [decodeTableWord_eq_some, he, tablePacket_packetBits_host h9 h10, ← he, decode_encode]

/-- A code with a micro-operation is a phase's code (10 R24, 30 R89). -/
theorem Phase.ofCode_of_decode {c : BitVec 4} {i : Instr} (h : decode (.uop c) = .ok i) :
    ∃ ph, Phase.ofCode c = some ph ∧ ph.code = c := by
  simp only [decode, decodeUop] at h
  split at h <;> cases h <;> exact ⟨_, rfl, rfl⟩

/-- A host operation that is presented is what the next step runs: presenting it and taking the step is
issuing it. -/
theorem step_present_host {s : State} {w : HostWord} {i : Instr} (h : decode (.host w) = .ok i) :
    step (s.present (.host w)) = exec i s := State.issue_eq h

/-- A micro-operation that is presented is what the next step runs, in the phase of its code. -/
theorem step_present_uop (s : State) {c : BitVec 4} {i : Instr} (h : decode (.uop c) = .ok i) :
    ∃ ph, step (s.present (.uop c)) = exec i { s with ph := ph } := by
  obtain ⟨ph, hph, rfl⟩ := Phase.ofCode_of_decode h
  refine ⟨ph, ?_⟩
  simp only [State.present, hph]
  exact step_sequencer_run rfl h

/-- Settles O8: by the format of the word's packet. -/
theorem placedTableWordRunsNext : Obligations.PlacedTableWordRunsNext := by
  intro s nbits w i hw
  have hd := decodeTableWord_eq_some.1 hw
  rw [State.withFetchWord]
  cases hp : tablePacket nbits w with
  | host hostWord =>
    rw [hp] at hd
    exact ⟨s.ph, step_present_host hd, fun _ => rfl⟩
  | uop c =>
    rw [hp] at hd
    obtain ⟨ph, hstep⟩ := step_present_uop s hd
    exact ⟨ph, hstep, fun hi => absurd hi (by simp [decodeUop_not_isHost hd])⟩

end Sys2Proof.Machine
end

section
/-! Where a micro-operation stops (log entry 8): O36. -/

namespace Sys2Proof.Machine

section
variable {s : State}

/-! ### The shared operations where an address or an index does not exist -/

theorem State.writePad_outOfRange {p : Nat} {bs : List Byte} (h : s.padCap < p + bs.length) :
    s.writePad p bs = none := if_neg (by omega)

theorem State.appendPad_outOfRange {bs : List Byte} {after : State → State}
    (h : s.padCap < s.pp.toNat + bs.length) :
    s.appendPad bs after = .fault (.padAddress s.pp.toNat) := by
  rw [State.appendPad, State.writePad_outOfRange h]

theorem State.putSched_outOfRange {x : Word} {next : Phase} (h : 64 ≤ s.t.toNat) :
    s.putSched x next = .fault (.wordIndex s.t.toNat) := dif_neg (by omega)

/-- The first sixteen words are loaded, not derived (42 R155). -/
theorem State.derivedWord_loaded {t : Nat} (h : t < 16) : s.derivedWord t = none := if_neg (by omega)

/-! ### The micro-operations -/

theorem execUPadcopy_msgAddress (h : s.cfg.msgCap.val ≤ s.pp.toNat) :
    execUPadcopy s = .fault (.msgAddress s.pp.toNat) := if_neg (by omega)

theorem execUPadmark_padAddress (h : s.padCap ≤ s.pp.toNat) :
    execUPadmark s = .fault (.padAddress s.pp.toNat) :=
  State.appendPad_outOfRange (Nat.lt_succ_of_le h)

theorem execUPadzero_padAddress (h : s.padCap ≤ s.pp.toNat) :
    execUPadzero s = .fault (.padAddress s.pp.toNat) :=
  State.appendPad_outOfRange (Nat.lt_succ_of_le h)

theorem execUPadlen_bitLength (h : 2 ^ 64 ≤ 8 * s.len.toNat) :
    execUPadlen s = .fault (.bitLength s.len.toNat) := if_neg (by omega)

theorem execUPadlen_padAddress (hlen : 8 * s.len.toNat < 2 ^ 64) (h : s.padCap < s.pp.toNat + 8) :
    execUPadlen s = .fault (.padAddress s.pp.toNat) := by
  rw [execUPadlen, if_pos hlen]
  exact State.appendPad_outOfRange h

theorem execUSchload_padAddress (h : s.padCap < s.loadAddress + 4) :
    execUSchload s = .fault (.padAddress s.loadAddress) := if_neg (by omega)

theorem execUSchload_wordIndex (h : s.loadAddress + 4 ≤ s.padCap) (ht : 64 ≤ s.t.toNat) :
    execUSchload s = .fault (.wordIndex s.t.toNat) := by
  have hread : (s.readPadWord s.loadAddress).2.t = s.t := State.readPadWord_t ..
  rw [execUSchload, if_pos h, ← hread]
  exact State.putSched_outOfRange (by rwa [hread])

/-- Below 16 the recurrence has no value; from 64 on there is no `W[t]` to put it in, whether or not the
words it reads exist. -/
theorem execUSchexp_wordIndex (h : s.t.toNat < 16 ∨ 64 ≤ s.t.toNat) :
    execUSchexp s = .fault (.wordIndex s.t.toNat) := by
  unfold execUSchexp
  rcases h with hlow | hhigh
  · rw [State.derivedWord_loaded hlow]
  · split
    · exact State.putSched_outOfRange hhigh
    · rfl

theorem execUCmpround_wordIndex (h : 64 ≤ s.t.toNat) :
    execUCmpround s = .fault (.wordIndex s.t.toNat) := by
  rw [execUCmpround, Rom.kAt_outOfRange h]

end

/-- Settles O36: one lemma for each way a micro-operation can stop. -/
theorem impossibleAccessesFaultByName : Obligations.ImpossibleAccessesFaultByName :=
  fun _ => ⟨execUPadcopy_msgAddress, fun h => ⟨execUPadmark_padAddress h, execUPadzero_padAddress h⟩,
    execUPadlen_bitLength, execUPadlen_padAddress, execUSchload_padAddress, execUSchload_wordIndex,
    execUSchexp_wordIndex, execUCmpround_wordIndex⟩

end Sys2Proof.Machine
end
